-- ==== Sys2Proof/Word.lean ====
section
/-! DEFINITION. The word types of the core (00_scope.md R6, R9): every value is unsigned and of a fixed width. -/

namespace Sys2Proof

/-- WORD of R6: the width of the PRNG words, a block, a key, a nonce, a subkey and a command word. -/
abbrev Word64 := BitVec 64

/-- HALF of R6: one half of a block, and a cipher round constant. -/
abbrev Word32 := BitVec 32

/-- One buffer byte (20_memory.md R81). -/
abbrev Byte := BitVec 8

end Sys2Proof
end

