-- ==== Sys2Proof/Syntax.lean ====
section
/-! DEFINITION. The eleven commands of the core (30_encoding.md R114), one constructor per row of the opcode table.
No command word carries an operand (R118, R119), so no constructor has a field. -/

namespace Sys2Proof

/-- The commands of R114. -/
inductive Instr where
  /-- `NOP`, 43_control.md R250. -/
  | nop
  /-- `PRNG.SEED`, 40_prng.md R148. -/
  | prngSeed
  /-- `PRNG.NEXT`, 40_prng.md R149. -/
  | prngNext
  /-- `BC.ENC`, 41_block_cipher.md R188. -/
  | bcEnc
  /-- `BC.DEC`, 41_block_cipher.md R189. -/
  | bcDec
  /-- `BT.PAD`, 42_block_transform.md R217. -/
  | btPad
  /-- `BT.UNPAD`, 42_block_transform.md R218. -/
  | btUnpad
  /-- `BT.ENC`, 42_block_transform.md R219. -/
  | btEnc
  /-- `BT.DEC`, 42_block_transform.md R220. -/
  | btDec
  /-- `KEY.WIPE`, 43_control.md R251. -/
  | keyWipe
  /-- `BUF.WIPE`, 43_control.md R252. -/
  | bufWipe
  deriving DecidableEq, Repr

end Sys2Proof
end

