-- ==== Sys2Proof/Decode.lean ====
section
/-! DEFINITION. Decoding a command word (30_encoding.md R110 to R117), total on all 2^64 words, and the encoder
written from the same opcode map (R114). -/

namespace Sys2Proof

/-- Why a word is `Illegal` (R111). Both reasons complete with ILLEGAL_COMMAND (60_exceptions.md R263). -/
inductive IllegalWord where
  /-- A bit of 63:8 is set (R112), whatever the OPC. -/
  | reservedBits
  /-- The OPC is none of the eleven of R114 (R115, R117). -/
  | unassignedOpcode
  deriving DecidableEq, Repr

/-- The field OPC, bits 7:0 (R110). -/
def opcField (v : Word64) : Byte := v.extractLsb' 0 8

/-- The field RSVD, bits 63:8 (R110). -/
def rsvdField (v : Word64) : BitVec 56 := v.extractLsb' 8 56

/-- The opcode map R114, from OPC to command. -/
def commandOfOpc (opc : Byte) : Option Instr :=
  match opc.toNat with
  | 0x00 => some .nop
  | 0x01 => some .prngSeed
  | 0x02 => some .prngNext
  | 0x10 => some .bcEnc
  | 0x11 => some .bcDec
  | 0x20 => some .btPad
  | 0x21 => some .btUnpad
  | 0x22 => some .btEnc
  | 0x23 => some .btDec
  | 0x30 => some .keyWipe
  | 0x31 => some .bufWipe
  | _ => none

/-- `Decode` of R111. -/
def decode (v : Word64) : Except IllegalWord Instr :=
  if rsvdField v ≠ 0 then .error .reservedBits
  else
    match commandOfOpc (opcField v) with
    | some i => .ok i
    | none => .error .unassignedOpcode

/-- The OPC of a command (R114). -/
def Instr.opc : Instr → Byte
  | .nop => 0x00
  | .prngSeed => 0x01
  | .prngNext => 0x02
  | .bcEnc => 0x10
  | .bcDec => 0x11
  | .btPad => 0x20
  | .btUnpad => 0x21
  | .btEnc => 0x22
  | .btDec => 0x23
  | .keyWipe => 0x30
  | .bufWipe => 0x31

/-- The command word of a command: RSVD 0, then its OPC (R110, R114). -/
def encode (i : Instr) : Word64 := (0 : BitVec 56) ++ i.opc

/-- The 64-bit command word whose low `nbits` bits are those of `w` and whose bits above are 0. A command word moves
whole in one host access (R113), so it has no byte order (assumption log 15). -/
def tableWord (nbits w : Nat) : Word64 := BitVec.ofNat 64 (w % 2 ^ nbits)

/-- The command the decoder reads from a word numbered as the opcode table numbers it. -/
def decodeTableWord (nbits w : Nat) : Option Instr :=
  match decode (tableWord nbits w) with
  | .ok i => some i
  | .error _ => none

end Sys2Proof
end

