-- ==== Sys2Proof/Config.lean ====
section
/-! DEFINITION. What an implementation of the core fixes (00_scope.md R7), as one record `Params`, and the
uninterpreted constants: the parameters of the machine as built, and the free values of reads while busy.
The constraints of R7 hold by construction (assumption log 2), so no `Params` breaks one of them. -/

namespace Sys2Proof

/-- The four mixing functions of 41_block_cipher.md R176, in the order of `choice` 0 to 3. R187: four arms and no
fallback, so an out-of-range choice cannot be written. -/
inductive Mixing where
  /-- `choice = 0`. -/
  | xorSubkey
  /-- `choice = 1`. -/
  | complementXorSubkey
  /-- `choice = 2`. -/
  | rotateLeft
  /-- `choice = 3`. -/
  | rotateRight
  deriving DecidableEq, Repr, Inhabited

/-- The KeyState of one round, 41_block_cipher.md R170. -/
structure KeyState where
  subkey : Word64
  choice : Mixing
  rotA : Fin 64
  rotB : Fin 64
  rci : Word64
  deriving DecidableEq, Repr, Inhabited

/-- The amount n of a rotation step of R174: "n is in 1..31". -/
abbrev RotAmount := { n : Nat // 1 ≤ n ∧ n ≤ 31 }

/-- The alphabet of ARX steps, 41_block_cipher.md R174. -/
inductive ArxStep where
  | xb
  | xa
  | ab
  | aa
  | ra (n : RotAmount)
  | rb (n : RotAmount)
  | cxa
  | cxb
  | caa
  | cab
  deriving DecidableEq, Repr

/-- The four words of a PRNG state, `(x, y, acc, ctr)` (40_prng.md R140). -/
structure PrngState where
  x : Word64
  y : Word64
  acc : Word64
  ctr : Word64
  deriving DecidableEq, Repr, Inhabited

/-- The open parameters of 00_scope.md R7. -/
structure Params where
  /-- `L64 - 1`. -/
  l64Pred : Fin 255
  /-- `RC64`, 40_prng.md R141. -/
  rc64 : Vector Word64 (l64Pred.val + 1)
  /-- `L32 - 1`. -/
  l32Pred : Fin 255
  /-- `RC32`, 41_block_cipher.md R173. -/
  rc32 : Vector Word32 (l32Pred.val + 1)
  /-- `WarmUp`, 40_prng.md R143. -/
  warmUp : Word64 → Word64
  /-- `InitWords` of the seed and the folded seed, giving x, y and acc, 40_prng.md R144. -/
  initWords : Word64 → Word64 → Word64 × Word64 × Word64
  /-- `PrngCore` of (x, y, acc, counter), tweak, c0, c1 and c2, giving x', y', acc' and out, 40_prng.md R146. -/
  prngCore : PrngState → Word64 → Word64 → Word64 → Word64 → Word64 × Word64 × Word64 × Word64
  /-- `NKS - 1`, 41_block_cipher.md R171. -/
  nksPred : Nat
  /-- `KS_TWEAK` of the round r and the call j, R171; only j below `NKS` is used. -/
  ksTweak : Fin 8 → Nat → Word64
  /-- `KS_MAP` of the round r and the `NKS` words of that round, R171. -/
  ksMap : Fin 8 → Vector Word64 (nksPred + 1) → KeyState
  /-- `ARX_SEQ`, R174. -/
  arxSeq : List ArxStep
  /-- `BUF_SIZE / 8 - 1`, 20_memory.md R82. -/
  bufBlocksPred : Fin 8192
  /-- `DEV_BASE`, 20_memory.md R80; read by no rule of the core. -/
  devBase : Nat
  deriving Inhabited

/-- `L64`: 1 ≤ L64 ≤ 255 (R7). -/
def Params.l64 (P : Params) : Nat := P.l64Pred.val + 1

/-- `L32`: 1 ≤ L32 ≤ 255 (R7). -/
def Params.l32 (P : Params) : Nat := P.l32Pred.val + 1

/-- `NKS`: at least 1 (R7). -/
def Params.nks (P : Params) : Nat := P.nksPred + 1

/-- `BUF_SIZE`: a multiple of 8 with 8 ≤ BUF_SIZE ≤ 65536 (R7, R82). -/
def Params.bufSize (P : Params) : Nat := 8 * (P.bufBlocksPred.val + 1)

/-- Which parameters a machine has (assumption log 1). It is plain data, so a state can hold it. -/
inductive Variant where
  /-- The machine as built: every parameter of R7 is uninterpreted. -/
  | asBuilt
  /-- The reference instantiation REF of R7, under which the [REF] vectors of 95_test_vectors.md hold. -/
  | ref
  deriving DecidableEq, Repr

/-- The parameters of the machine as built (R7, D25). Nothing can be proved of them beyond their type: R8 forbids a
claim that rests on a value of theirs. DESIGN CHOICE, safe (assumption log 1). -/
opaque Config.asBuilt : Params

/-- The free values of reads while BUSY (20_memory.md R96, 70_reset_and_hazards.md R311): the n-th draw.
DESIGN CHOICE of form, safe (assumption log 6). -/
opaque Config.draw : Nat → Word64

end Sys2Proof
end

