-- ==== Sys2Proof/Machine/HostTypes.lean ====
section
/-! DEFINITION. The vocabulary of the host agent: register names (10_state.md R56), bus accesses (30_encoding.md R123),
the operations and pseudo-instructions of a host script (R121, R122), and the agents that can take a step. -/

namespace Sys2Proof.Machine

/-- The named device registers of 10_state.md R33 to R54. -/
inductive RegName where
  | id
  | cfg
  | ctrl
  | status
  | cmd
  | prngSeed
  | prngTweak
  | prngOut
  | prngX
  | prngY
  | prngAcc
  | prngCtr
  | bcKey
  | bcNonce
  | bcData
  | btNonce
  | btSk0
  | btSk1
  | btSk2
  | btSk3
  | btLen
  deriving DecidableEq, Repr

/-- One bus access of the host, `(kind, offset, size, value)` of 30_encoding.md R123. Offsets are device offsets
(20_memory.md R80); the size is in bytes. -/
inductive BusAccess where
  | read (offset size : Nat)
  | write (offset size : Nat) (value : Word64)
  deriving DecidableEq, Repr

/-- One operation of an expanded host program: a bus access, or one turn of the `wait` loop of R122. -/
inductive HostOp where
  | access (a : BusAccess)
  | wait
  deriving DecidableEq, Repr

/-- The lines of a host script: the operations of R121, then the pseudo-instructions of R122. -/
inductive ScriptOp where
  | wr (r : RegName) (v : Word64)
  | rd (r : RegName)
  | wrb (a n : Nat) (v : Word64)
  | rdb (a n : Nat)
  | cmd (m : Instr)
  | cmdw (v : Word64)
  | wait
  | exec (m : Instr)
  | seed (v : Word64)
  | next (t : Word64)
  | ack
  | wrbuf (a : Nat) (bytes : List Byte)
  | expect (r : RegName) (v : Word64)
  deriving DecidableEq, Repr

/-- A value the host has read: an observation of R121. -/
structure Observation where
  offset : Nat
  size : Nat
  value : Word64
  deriving DecidableEq, Repr

/-- The host agent (10_state.md R31, R32): its program, its step index, and what it has read, oldest first. -/
structure HostAgent where
  program : List HostOp
  pc : Nat
  seen : List Observation
  deriving DecidableEq, Repr

/-- Who takes a step: an agent of 10_state.md R32, or the platform's reset input (70_reset_and_hazards.md R300). -/
inductive Mover where
  | engine
  | host
  | reset
  deriving DecidableEq, Repr

end Sys2Proof.Machine
end

