-- ==== Sys2Proof/Machine/State.lean ====
section
/-! DEFINITION. The state of the machine as plain data (10_state.md R63, with the host agent of R31), the reasons a
step can stop, and the state after reset (70_reset_and_hazards.md R301). -/

namespace Sys2Proof.Machine

/-- CTRL, STATUS and the hidden command word: 10_state.md R35, R37 to R42, R57. -/
structure Control where
  /-- CTRL.IE, R35. -/
  ie : Bool
  /-- STATUS.BUSY, R37. -/
  busy : Bool
  /-- STATUS.DONE, R38. -/
  done : Bool
  /-- STATUS.ERR, R39. -/
  err : Bool
  /-- STATUS.OVR, R40. -/
  ovr : Bool
  /-- STATUS.SEEDED, R41. -/
  seeded : Bool
  /-- STATUS.ERRCODE, R42. -/
  errcode : Byte
  /-- PENDING, R57. -/
  pending : Word64
  deriving DecidableEq, Repr

/-- The operand and result registers: 10_state.md R44 to R54. -/
structure Registers where
  /-- PRNG_SEED, R44. -/
  prngSeed : Word64
  /-- PRNG_TWEAK, R45. -/
  prngTweak : Word64
  /-- PRNG_OUT, R46. -/
  prngOut : Word64
  /-- PRNG_X, PRNG_Y, PRNG_ACC (R47) and PRNG_CTR (R48). -/
  prng : PrngState
  /-- BC_KEY, R49. -/
  bcKey : Word64
  /-- BC_NONCE, R50. -/
  bcNonce : Word64
  /-- BC_DATA, R51. -/
  bcData : Word64
  /-- BT_NONCE, R52. -/
  btNonce : Word64
  /-- BT_SK0, R53. -/
  btSk0 : Word64
  /-- BT_SK1, R53. -/
  btSk1 : Word64
  /-- BT_SK2, R53. -/
  btSk2 : Word64
  /-- BT_SK3, R53. -/
  btSk3 : Word64
  /-- BT_LEN.LEN, R54. -/
  btLen : Word32
  deriving DecidableEq, Repr

/-- The buffer memory (20_memory.md R81): the bytes that hold a value, with their buffer offsets, offsets strictly
rising (`Memory.wf`). An offset that is not listed holds no value (10_state.md R60). -/
abbrev Memory := List Host.Cell

/-- The canonical form of a memory: offsets strictly rising. An unlisted byte has no value and a listed one has, so no
entry can equal what an unlisted address reads as. -/
def Memory.wf : Memory → Bool
  | [] => true
  | [_] => true
  | c :: d :: m => decide (c.1 < d.1) && Memory.wf (d :: m)

/-- The machine: the core of 10_state.md R63, the host agent of R31, and the model's own plain-data inputs. -/
structure State where
  /-- Which parameters the machine has; no step changes it (assumption log 1). -/
  variant : Variant
  /-- CTRL, STATUS and PENDING. -/
  ctl : Control
  /-- The operand and result registers. -/
  regs : Registers
  /-- The buffer bytes that hold a value. -/
  buf : Memory
  /-- The host agent. -/
  host : HostAgent
  /-- Who takes the coming steps, next first (assumption log 3). -/
  schedule : List Mover
  /-- How many draws reads have taken (assumption log 6). -/
  draws : Nat
  deriving DecidableEq, Repr

/-- The model faults of 60_exceptions.md R286: the machine has no transition. -/
inductive Fault where
  /-- A read of a buffer byte that holds no value (R286 a). Raised by a host read of the buffer window (20_memory.md
  R84) and by BT.UNPAD, BT.ENC and BT.DEC (42_block_transform.md R218 to R220). Safe: a real device returns some byte. -/
  | unwrittenByte
  deriving DecidableEq, Repr

/-- What the model refuses. -/
inductive Refusal where
  /-- An instruction without a meaning: raised by an arm of `exec` only. Safe. No arm raises it. -/
  | notModelled (mnemonic : String)
  /-- A host access that 20_memory.md R83 and R84 do not admit (R85, 60_exceptions.md R278). Raised by the host's step.
  Safe: the access changes no state of the core and no claim is provable of the program. -/
  | busError
  /-- A host write of an operand register or of the buffer while BUSY = 1 (70_reset_and_hazards.md R310). Raised by the
  host's step. Safe: a real device may use the old value, the new one or a mix. -/
  | writeWhileBusy
  deriving DecidableEq, Repr

/-- The core's reset values (70_reset_and_hazards.md R301) with the host agent, the schedule and the draw count given:
a reset of the core leaves them alone (assumption log 13). PENDING is unspecified (R303): 0 here (assumption log 10). -/
def State.resetWith (variant : Variant) (host : HostAgent) (schedule : List Mover) (draws : Nat) : State where
  variant := variant
  ctl :=
    { ie := false, busy := false, done := false, err := false, ovr := false, seeded := false, errcode := 0
      pending := 0 }
  regs :=
    { prngSeed := 0, prngTweak := 0, prngOut := 0, prng := { x := 0, y := 0, acc := 0, ctr := 0 }
      bcKey := 0, bcNonce := 0, bcData := 0
      btNonce := 0, btSk0 := 0, btSk1 := 0, btSk2 := 0, btSk3 := 0, btLen := 0 }
  buf := []
  host := host
  schedule := schedule
  draws := draws

/-- The machine right after reset (R301, R302): no host program placed, its step index 0 (10_state.md R31), no mover
scheduled, no draw taken (assumption log 3, 5, 6, 14). -/
def State.reset : State :=
  State.resetWith .asBuilt { program := [], pc := 0, seen := [] } [] 0

end Sys2Proof.Machine
end

