-- ==== Sys2Proof/Machine/Flags.lean ====
section
/-! DEFINITION. The flags of the core (10_state.md R61): the error codes (60_exceptions.md R260), the STATUS word
(R36), what acceptance, completion, an error and a host write of STATUS do to the flags, and the IRQ output (R62).
No command has an arithmetic flag. -/

namespace Sys2Proof.Machine

/-- The named error codes of 60_exceptions.md R260. -/
inductive ErrorCode where
  | illegalCommand
  | notSeeded
  | invalidPadding
  | lengthNotMultiple
  | bufferOverflow
  /-- Reserved, never raised (R268; 41_block_cipher.md R187). -/
  | invariant
  deriving DecidableEq, Repr

/-- The value of ERRCODE for an error (R260). -/
def ErrorCode.code : ErrorCode → Byte
  | .illegalCommand => 0x01
  | .notSeeded => 0x02
  | .invalidPadding => 0x03
  | .lengthNotMultiple => 0x04
  | .bufferOverflow => 0x05
  | .invariant => 0x06

/-- A flag as a 64-bit word with the flag at bit `i`. -/
def flagAt (b : Bool) (i : Nat) : Word64 := (BitVec.ofBool b).setWidth 64 <<< i

/-- What a read of STATUS returns (10_state.md R36): reserved bits read as 0. -/
def Control.statusWord (c : Control) : Word64 :=
  flagAt c.busy 0 ||| flagAt c.done 1 ||| flagAt c.err 2 ||| flagAt c.ovr 3 ||| flagAt c.seeded 4
    ||| (c.errcode.setWidth 64 <<< 8)

/-- What a read of CTRL returns: IE in bit 0 (R35). -/
def Control.ctrlWord (c : Control) : Word64 := flagAt c.ie 0

/-- A host write of CTRL: IE becomes bit 0 (R35). -/
def Control.writeCtrl (c : Control) (v : Word64) : Control := { c with ie := v.getLsbD 0 }

/-- A host write of STATUS, the W1C rule of R36. -/
def Control.writeStatus (c : Control) (v : Word64) : Control :=
  { c with
    done := if v.getLsbD 1 then false else c.done
    err := if v.getLsbD 2 then false else c.err
    errcode := if v.getLsbD 2 then 0 else c.errcode
    ovr := if v.getLsbD 3 then false else c.ovr }

/-- A command word latched and accepted: the first case of 60_exceptions.md R271. OVR and SEEDED are unchanged. -/
def Control.latch (c : Control) (v : Word64) : Control :=
  { c with pending := v, busy := true, done := false, err := false, errcode := 0 }

/-- A host write of CMD, 60_exceptions.md R271: accepted when idle, dropped with OVR set when busy. -/
def Control.writeCmd (c : Control) (v : Word64) : Control :=
  if c.busy then { c with ovr := true } else c.latch v

/-- The STATUS fields an error writes (60_exceptions.md R261). -/
def Control.recordError (c : Control) (e : ErrorCode) : Control := { c with err := true, errcode := e.code }

/-- The STATUS fields every completion writes (60_exceptions.md R272). -/
def Control.finish (c : Control) : Control := { c with busy := false, done := true }

/-- The SEEDED flag set by PRNG.SEED (10_state.md R41). -/
def Control.markSeeded (c : Control) : Control := { c with seeded := true }

/-- The IRQ output, `CTRL.IE & STATUS.DONE` (10_state.md R62, 60_exceptions.md R276). -/
def Control.irq (c : Control) : Bool := c.ie && c.done

end Sys2Proof.Machine
end

