-- ==== Sys2Proof/Machine/Ref.lean ====
section
/-! DEFINITION. The reference instantiation REF of the open parameters (40_prng.md R155 to R159, 41_block_cipher.md
R195 to R197). It is the spec's own choice and not the original's (R155): nothing proved under it speaks of the original. -/

namespace Sys2Proof.Machine

/-- `rotl_64` of 00_scope.md R11. -/
def rotl64 (a : Word64) (n : Nat) : Word64 := a.rotateLeft n

/-- `rotr_64` of 00_scope.md R11. -/
def rotr64 (a : Word64) (n : Nat) : Word64 := a.rotateRight n

/-- REF `RC64`, 40_prng.md R156. -/
def Ref.rc64 : Vector Word64 16 :=
  #v[0xE220A8397B1DCDAF, 0x6E789E6AA1B965F4, 0x06C45D188009454F, 0xF88BB8A8724C81EC,
    0x1B39896A51A8749B, 0x53CB9F0C747EA2EA, 0x2C829ABE1F4532E1, 0xC584133AC916AB3C,
    0x3EE5789041C98AC3, 0xF3B8488C368CB0A6, 0x657EECDD3CB13D09, 0xC2D326E0055BDEF6,
    0x8621A03FE0BBDB7B, 0x8E1F7555983AA92F, 0xB54E0F1600CC4D19, 0x84BB3F97971D80AB]

/-- REF `RC32`, 41_block_cipher.md R195. -/
def Ref.rc32 : Vector Word32 16 :=
  #v[0x75521255, 0x2B7F7F86, 0x83914F64, 0x5A4485AC, 0x100B9ED7, 0x1825F10D, 0x0DCA2F6A, 0x7BD2634C,
    0xF5407269, 0xDB4C4F7B, 0x92233300, 0x7DE1D510, 0xB45C6316, 0x0F4D3872, 0x72F3454F, 0xA8E40225]

/-- One pass of the warm-up template (40_prng.md R143): `n` iterations are left of the 64, and the selector bit of
iteration i is bit i of `t`. -/
def warmUpPass (g0 g1 : Word64 → Word64) (t : Word64) : Nat → Word64 → Word64
  | 0, v => v
  | n + 1, v => warmUpPass g0 g1 t n (if t.getLsbD (63 - n) then g1 v else g0 v)

/-- `WarmUpTemplate` of 40_prng.md R143 with `passes` passes left; the value after a pass selects in the next. -/
def warmUpPasses (g0 g1 : Word64 → Word64) : Nat → Word64 → Word64
  | 0, v => v
  | n + 1, v => warmUpPasses g0 g1 n (warmUpPass g0 g1 v 64 v)

/-- The template of R143: 4 passes of 64 iterations. -/
def warmUpTemplate (g0 g1 : Word64 → Word64) (s : Word64) : Word64 := warmUpPasses g0 g1 4 s

/-- REF branch `G0`, 40_prng.md R157. -/
def Ref.g0 (v : Word64) : Word64 := rotl64 (v + Ref.rc64[0]) 17 ^^^ Ref.rc64[1]

/-- REF branch `G1`, R157. -/
def Ref.g1 (v : Word64) : Word64 := rotr64 (v ^^^ Ref.rc64[2]) 23 + Ref.rc64[3]

/-- REF `WarmUp`, R157. -/
def Ref.warmUp (s : Word64) : Word64 := warmUpTemplate Ref.g0 Ref.g1 s

/-- REF `InitWords`, 40_prng.md R158; the seed itself is not used. -/
def Ref.initWords (_s f : Word64) : Word64 × Word64 × Word64 :=
  (f, rotl64 f 21 ^^^ Ref.rc64[4], rotr64 f 13 + Ref.rc64[5])

/-- REF `PrngCore`, 40_prng.md R159; the tweak has already selected c0 and c1. -/
def Ref.prngCore (st : PrngState) (_tweak c0 c1 c2 : Word64) : Word64 × Word64 × Word64 × Word64 :=
  let x1 := st.x ^^^ rotl64 st.y 7 ^^^ st.ctr
  let y1 := st.y ^^^ rotl64 st.acc 19 ^^^ rotr64 x1 11
  let a1 := st.acc ^^^ rotl64 x1 41 ^^^ st.ctr
  let x' := x1 + (rotl64 y1 13 ^^^ c0)
  let y' := y1 + (rotl64 a1 29 ^^^ c1)
  let acc' := a1 + (rotl64 x' 47 ^^^ c2)
  (x', y', acc', x' ^^^ y' ^^^ acc')

/-- The mixing function of a `choice` (41_block_cipher.md R176). -/
def Mixing.ofChoice (choice : BitVec 2) : Mixing :=
  if choice = 0 then .xorSubkey
  else if choice = 1 then .complementXorSubkey
  else if choice = 2 then .rotateLeft
  else .rotateRight

/-- REF `KS_MAP`, 41_block_cipher.md R196. -/
def Ref.ksMap (_r : Fin 8) (w : Vector Word64 2) : KeyState where
  subkey := w[0]
  choice := Mixing.ofChoice (w[1].extractLsb' 0 2)
  rotA := (w[1].extractLsb' 8 6).toFin
  rotB := (w[1].extractLsb' 16 6).toFin
  rci := BitVec.ofNat 64 ((w[1] >>> 24).toNat % 16)

/-- REF `ARX_SEQ`, 41_block_cipher.md R197. -/
def Ref.arxSeq : List ArxStep :=
  [.xb, .ra ⟨24, by decide⟩, .aa, .cxa, .rb ⟨3, by decide⟩, .xb, .cab]

/-- REF (00_scope.md R7): L64 = L32 = 16, NKS = 2, KS_TWEAK(r, j) = r, BUF_SIZE = 8192. DEV_BASE stays open in R7; no
rule reads it (assumption log 18). -/
def Params.ref : Params where
  l64Pred := 15
  rc64 := Ref.rc64
  l32Pred := 15
  rc32 := Ref.rc32
  warmUp := Ref.warmUp
  initWords := Ref.initWords
  prngCore := Ref.prngCore
  nksPred := 1
  ksTweak := fun r _ => BitVec.ofNat 64 r.val
  ksMap := Ref.ksMap
  arxSeq := Ref.arxSeq
  bufBlocksPred := 1023
  devBase := Config.asBuilt.devBase

end Sys2Proof.Machine
end

