-- ==== Sys2Proof/Machine/Ops.lean ====
section
/-! DEFINITION. The shared operations: bit fields of words (00_scope.md R10, R11), the buffer memory (R13), the
parameters of a state, how a command completes (60_exceptions.md R261, R262, R272) and whose turn it is. -/

namespace Sys2Proof.Machine

/-- `rotl_32` of 00_scope.md R11. -/
def rotl32 (a : Word32) (n : Nat) : Word32 := a.rotateLeft n

/-- `rotr_32` of R11. -/
def rotr32 (a : Word32) (n : Nat) : Word32 := a.rotateRight n

/-- `Split` of 41_block_cipher.md R175: the high half is `a`, the low half `b`. -/
def split (v : Word64) : Word32 × Word32 := (v.extractLsb' 32 32, v.extractLsb' 0 32)

/-- `Join` of R175: `a ++ b` (00_scope.md R10). -/
def join (a b : Word32) : Word64 := a ++ b

/-- The parameters of a variant. -/
def Variant.params : Variant → Params
  | .asBuilt => Config.asBuilt
  | .ref => Params.ref

/-- The parameters the machine was given (00_scope.md R7). -/
def State.params (s : State) : Params := Variant.params s.variant

/-! ### The buffer memory -/

/-- The value of the byte at a buffer offset, none if it has not been written since reset (10_state.md R60). -/
def Memory.byteAt : Memory → Nat → Option Byte
  | [], _ => none
  | c :: m, a => if c.1 = a then some c.2 else Memory.byteAt m a

/-- Write one byte, keeping the offsets strictly rising. -/
def Memory.setByte : Memory → Nat → Byte → Memory
  | [], a, b => [(a, b)]
  | c :: m, a, b =>
    if a < c.1 then (a, b) :: c :: m
    else if c.1 = a then (a, b) :: m
    else c :: Memory.setByte m a b

/-- Whether bytes `a .. a+n-1` all hold a value. -/
def Memory.hasBytes (m : Memory) (a : Nat) : Nat → Bool
  | 0 => true
  | n + 1 => (m.byteAt a).isSome && Memory.hasBytes m (a + 1) n

/-- `MemRead(a, n)` of 00_scope.md R13, little-endian; none if one of the bytes holds no value. -/
def Memory.load (m : Memory) (a : Nat) : Nat → Option Word64
  | 0 => some 0
  | n + 1 =>
    match m.byteAt a, Memory.load m (a + 1) n with
    | some b, some v => some ((v <<< 8) ||| b.setWidth 64)
    | _, _ => none

/-- `MemWrite(a, n, v)` of R13: byte `a + k` becomes `v[8k+7:8k]`. -/
def Memory.store (m : Memory) (a : Nat) : Nat → Word64 → Memory
  | 0, _ => m
  | n + 1, v => Memory.store (m.setByte a (v.setWidth 8)) (a + 1) n (v >>> 8)

/-- Bytes `a .. a+n-1` all become `b`. -/
def Memory.fill (m : Memory) (a : Nat) : Nat → Byte → Memory
  | 0, _ => m
  | n + 1, b => Memory.fill (m.setByte a b) (a + 1) n b

/-- The memory in which bytes `a .. a+n-1` are 0 and no other byte holds a value (43_control.md R252). -/
def Memory.zeros (a : Nat) : Nat → Memory
  | 0 => []
  | n + 1 => (a, 0) :: Memory.zeros (a + 1) n

/-- The byte string `buf[a .. a+n-1]` (42_block_transform.md, notation), none if one of the bytes holds no value. -/
def Memory.bytes (m : Memory) (a : Nat) : Nat → Option (List Byte)
  | 0 => some []
  | n + 1 =>
    match m.byteAt a, Memory.bytes m (a + 1) n with
    | some b, some bs => some (b :: bs)
    | _, _ => none

/-! ### Updates of a state -/

/-- Replace CTRL, STATUS and PENDING. -/
def State.setCtl (s : State) (c : Control) : State := { s with ctl := c }

/-- Replace the operand and result registers. -/
def State.setRegs (s : State) (r : Registers) : State := { s with regs := r }

/-- Replace the buffer. -/
def State.setBuf (s : State) (m : Memory) : State := { s with buf := m }

/-- Replace the host agent. -/
def State.setHost (s : State) (h : HostAgent) : State := { s with host := h }

/-- Write BT_LEN (10_state.md R54). -/
def State.setBtLen (s : State) (n : Nat) : State :=
  s.setRegs { s.regs with btLen := BitVec.ofNat 32 n }

/-- Take a draw: the next read that draws gets another (assumption log 6). -/
def State.nextDraw (s : State) : State := { s with draws := s.draws + 1 }

/-- Take the first mover off the schedule. -/
def State.popMover (s : State) : State := { s with schedule := s.schedule.tail }

/-! ### How a command ends -/

/-- What `Execute` of 60_exceptions.md R272 answers: `ok S1`, `error code`, or no transition (R286). -/
inductive Executed where
  | ok (s : State)
  | error (e : ErrorCode)
  | stuck (f : Fault)
  deriving DecidableEq, Repr

/-- Taking an error, the core's whole exception mechanism (60_exceptions.md R261, R262, R273): the state before the
command, with ERR and ERRCODE recorded. Nothing is saved and no control is transferred, so there is no return to model:
the host acknowledges by a write of STATUS (`Control.writeStatus`) or by the next command (`Control.latch`). -/
def State.raiseError (s : State) (e : ErrorCode) : State := s.setCtl (s.ctl.recordError e)

/-- BUSY and DONE at the end of every command (R272). -/
def State.finish (s : State) : State := s.setCtl s.ctl.finish

/-- `Complete` of 60_exceptions.md R272, from the state `s0` before the command and what its execution answered. -/
def complete (s0 : State) : Executed → Host.Outcome State Fault Refusal
  | .ok s1 => .next s1.finish
  | .error e => .next (s0.raiseError e).finish
  | .stuck f => .fault f

/-! ### Whose turn it is -/

/-- Who takes the next step: the head of the schedule; when it is empty, the engine while a command is pending and the
host otherwise (70_reset_and_hazards.md R315: any interleaving, and the completion step is eventually taken).
DESIGN CHOICE (assumption log 3). -/
def State.nextMover (s : State) : Mover :=
  match s.schedule with
  | m :: _ => m
  | [] => if s.ctl.busy then .engine else .host

/-- The state in which the command word `v` has just been accepted (60_exceptions.md R271) and the engine moves next. -/
def State.placeCommand (s : State) (v : Word64) : State :=
  { s.setCtl (s.ctl.latch v) with schedule := .engine :: s.schedule }

/-- The reset event (70_reset_and_hazards.md R300, R304): the core's state becomes the reset state whatever it was; the
host agent and the model's inputs stay (assumption log 13). -/
def State.coreReset (s : State) : State := State.resetWith s.variant s.host s.schedule s.draws

/-- Run `f` on the state of a next outcome; a fault or a refusal stays. -/
def chain {α β : Type} (o : Host.Outcome α Fault Refusal) (f : α → Host.Outcome β Fault Refusal) :
    Host.Outcome β Fault Refusal :=
  match o with
  | .next a => f a
  | .fault r => .fault r
  | .refused r => .refused r

end Sys2Proof.Machine
end

