-- ==== Sys2Proof/Machine/Operands.lean ====
section
/-! DEFINITION. The operands of the core: the register map (10_state.md R33 to R56), reading and writing a register, the
cascade key (42_block_transform.md R212), and each command's read and write set (30_encoding.md R118). -/

namespace Sys2Proof.Machine

/-! ### The register map -/

/-- The device offset of a register (10_state.md R56). -/
def RegName.offset : RegName → Nat
  | .id => 0x00
  | .cfg => 0x08
  | .ctrl => 0x10
  | .status => 0x18
  | .cmd => 0x20
  | .prngSeed => 0x28
  | .prngTweak => 0x30
  | .prngOut => 0x38
  | .prngX => 0x40
  | .prngY => 0x48
  | .prngAcc => 0x50
  | .prngCtr => 0x58
  | .bcKey => 0x60
  | .bcNonce => 0x68
  | .bcData => 0x70
  | .btNonce => 0x78
  | .btSk0 => 0x80
  | .btSk1 => 0x88
  | .btSk2 => 0x90
  | .btSk3 => 0x98
  | .btLen => 0xA0

/-- The register at an offset; none for the reserved offsets of R55. -/
def RegName.ofOffset (offset : Nat) : Option RegName :=
  match offset with
  | 0x00 => some .id
  | 0x08 => some .cfg
  | 0x10 => some .ctrl
  | 0x18 => some .status
  | 0x20 => some .cmd
  | 0x28 => some .prngSeed
  | 0x30 => some .prngTweak
  | 0x38 => some .prngOut
  | 0x40 => some .prngX
  | 0x48 => some .prngY
  | 0x50 => some .prngAcc
  | 0x58 => some .prngCtr
  | 0x60 => some .bcKey
  | 0x68 => some .bcNonce
  | 0x70 => some .bcData
  | 0x78 => some .btNonce
  | 0x80 => some .btSk0
  | 0x88 => some .btSk1
  | 0x90 => some .btSk2
  | 0x98 => some .btSk3
  | 0xA0 => some .btLen
  | _ => none

/-- The constant value of ID (R33). -/
def idWord : Word64 := 0x4855584600000001

/-- The constant value of CFG (R34): L64 in bits 7:0, L32 in 15:8, BUF_SIZE in 47:16. -/
def cfgWord (P : Params) : Word64 :=
  BitVec.ofNat 64 P.l64 ||| (BitVec.ofNat 64 P.l32 <<< 8) ||| (BitVec.ofNat 64 P.bufSize <<< 16)

/-- The value a register holds, as a read of it returns it (R33 to R54). CMD reads 0 (R43). -/
def State.readReg (s : State) : RegName → Word64
  | .id => idWord
  | .cfg => cfgWord s.params
  | .ctrl => s.ctl.ctrlWord
  | .status => s.ctl.statusWord
  | .cmd => 0
  | .prngSeed => s.regs.prngSeed
  | .prngTweak => s.regs.prngTweak
  | .prngOut => s.regs.prngOut
  | .prngX => s.regs.prng.x
  | .prngY => s.regs.prng.y
  | .prngAcc => s.regs.prng.acc
  | .prngCtr => s.regs.prng.ctr
  | .bcKey => s.regs.bcKey
  | .bcNonce => s.regs.bcNonce
  | .bcData => s.regs.bcData
  | .btNonce => s.regs.btNonce
  | .btSk0 => s.regs.btSk0
  | .btSk1 => s.regs.btSk1
  | .btSk2 => s.regs.btSk2
  | .btSk3 => s.regs.btSk3
  | .btLen => s.regs.btLen.setWidth 64

/-- The effect of an admitted host write of a register (R33 to R54). RO registers ignore it (20_memory.md R90). -/
def State.writeReg (s : State) (r : RegName) (v : Word64) : State :=
  match r with
  | .ctrl => s.setCtl (s.ctl.writeCtrl v)
  | .status => s.setCtl (s.ctl.writeStatus v)
  | .cmd => s.setCtl (s.ctl.writeCmd v)
  | .prngSeed => s.setRegs { s.regs with prngSeed := v }
  | .prngTweak => s.setRegs { s.regs with prngTweak := v }
  | .bcKey => s.setRegs { s.regs with bcKey := v }
  | .bcNonce => s.setRegs { s.regs with bcNonce := v }
  | .bcData => s.setRegs { s.regs with bcData := v }
  | .btNonce => s.setRegs { s.regs with btNonce := v }
  | .btSk0 => s.setRegs { s.regs with btSk0 := v }
  | .btSk1 => s.setRegs { s.regs with btSk1 := v }
  | .btSk2 => s.setRegs { s.regs with btSk2 := v }
  | .btSk3 => s.setRegs { s.regs with btSk3 := v }
  | .btLen => s.setRegs { s.regs with btLen := v.setWidth 32 }
  | .id | .cfg | .prngOut | .prngX | .prngY | .prngAcc | .prngCtr => s

/-- The RW operand registers: a host write of one while BUSY = 1 is refused (70_reset_and_hazards.md R310). -/
def RegName.isOperand : RegName → Bool
  | .prngSeed | .prngTweak | .bcKey | .bcNonce | .bcData | .btNonce | .btSk0 | .btSk1 | .btSk2 | .btSk3 | .btLen => true
  | .id | .cfg | .ctrl | .status | .cmd | .prngOut | .prngX | .prngY | .prngAcc | .prngCtr => false

/-! ### Operands of the commands -/

/-- The cascade subkey `SK[i]` (10_state.md R53, 42_block_transform.md R212). -/
def State.subkey (s : State) (i : Fin 4) : Word64 :=
  if i = 0 then s.regs.btSk0 else if i = 1 then s.regs.btSk1 else if i = 2 then s.regs.btSk2 else s.regs.btSk3

/-- The number of valid buffer bytes, `reg[BT_LEN]` (10_state.md R54). -/
def State.len (s : State) : Nat := s.regs.btLen.toNat

/-- `p` of 42_block_transform.md R210: the number of pad bytes after `n` bytes. -/
def padLength (n : Nat) : Nat := 8 - n % 8

/-- The registers a command writes on success (30_encoding.md R118), STATUS apart. -/
def writesReg : Instr → RegName → Bool
  | .prngSeed, r | .prngNext, r =>
    r == .prngX || r == .prngY || r == .prngAcc || r == .prngCtr || r == .prngOut
  | .bcEnc, r | .bcDec, r => r == .bcData
  | .btPad, r | .btUnpad, r => r == .btLen
  | .keyWipe, r =>
    r == .bcKey || r == .bcNonce || r == .btNonce || r == .btSk0 || r == .btSk1 || r == .btSk2 || r == .btSk3
  | .bufWipe, r => r == .btLen || r == .bcData
  | .nop, _ | .btEnc, _ | .btDec, _ => false

/-- Whether buffer byte `a` is in the write set of a command issued in state `s` (R118). -/
def State.writesByte (s : State) (i : Instr) (a : Nat) : Bool :=
  match i with
  | .btPad => decide (s.len ≤ a) && decide (a < s.len + padLength s.len)
  | .btEnc | .btDec => decide (a < s.len)
  | .bufWipe => decide (a < s.params.bufSize)
  | .nop | .prngSeed | .prngNext | .bcEnc | .bcDec | .btUnpad | .keyWipe => false

/-- Whether register `r` is in the write set of the pending command (20_memory.md R96): never for an illegal word. -/
def State.pendingWritesReg (s : State) (r : RegName) : Bool :=
  match decode s.ctl.pending with
  | .ok i => writesReg i r
  | .error _ => false

/-- Whether buffer byte `a` is in the write set of the pending command (20_memory.md R96). -/
def State.pendingWritesByte (s : State) (a : Nat) : Bool :=
  match decode s.ctl.pending with
  | .ok i => s.writesByte i a
  | .error _ => false

end Sys2Proof.Machine
end

