-- ==== Sys2Proof/Machine/Prng.lean ====
section
/-! DEFINITION. The PRNG unit (40_prng.md): `Seed` and `Next`, and the commands PRNG.SEED and PRNG.NEXT. -/

namespace Sys2Proof.Machine

/-- The constant selected by `i`: `RC64[i mod L64]` (40_prng.md R141). -/
def rc64At (P : Params) (i : Word64) : Word64 :=
  P.rc64[i.toNat % (P.l64Pred.val + 1)]'(Nat.mod_lt _ (Nat.succ_pos _))

/-- `Seed(s)` of 40_prng.md R142: the warm value folded into the seed, the three words, and counter 0. -/
def seedStream (P : Params) (seed : Word64) : PrngState :=
  let f := seed ^^^ P.warmUp seed
  let w := P.initWords seed f
  { x := w.1, y := w.2.1, acc := w.2.2, ctr := 0 }

/-- `Next` of 40_prng.md R146, with the constants of R145 selected by the values before the call and the counter of
R147 wrapping at 2^64. -/
def nextWord (P : Params) (st : PrngState) (tweak : Word64) : PrngState × Word64 :=
  let r := P.prngCore st tweak (rc64At P tweak) (rc64At P (st.ctr + tweak)) (rc64At P st.acc)
  ({ x := r.1, y := r.2.1, acc := r.2.2.1, ctr := st.ctr + 1 }, r.2.2.2)

/-- The PRNG words and PRNG_OUT written (10_state.md R46 to R48). -/
def State.setPrng (s : State) (st : PrngState) (out : Word64) : State :=
  s.setRegs { s.regs with prng := st, prngOut := out }

/-- `PRNG.SEED`, 40_prng.md R148. -/
def execPrngSeed (s : State) : Host.Outcome State Fault Refusal :=
  let s1 := s.setPrng (seedStream s.params s.regs.prngSeed) 0
  complete s (.ok (s1.setCtl s1.ctl.markSeeded))

/-- `PRNG.NEXT`, 40_prng.md R149. -/
def execPrngNext (s : State) : Host.Outcome State Fault Refusal :=
  if s.ctl.seeded = false then complete s (.error .notSeeded)
  else
    let r := nextWord s.params s.regs.prng s.regs.prngTweak
    complete s (.ok (s.setPrng r.1 r.2))

end Sys2Proof.Machine
end

