-- ==== Sys2Proof/Machine/BlockCipher.lean ====
section
/-! DEFINITION. The BC unit (41_block_cipher.md): the key schedule, the round forward and backward, the block
functions, and the commands BC.ENC and BC.DEC. -/

namespace Sys2Proof.Machine

/-! ### Key schedule -/

/-- `n` calls of `Next` in a row, the j-th with tweak `tweak j`: the words in the order of the calls. -/
def drawWords (P : Params) (tweak : Nat → Word64) : (n : Nat) → PrngState → PrngState × Vector Word64 n
  | 0, st => (st, #v[])
  | n + 1, st =>
    let before := drawWords P tweak n st
    let r := nextWord P before.1 (tweak n)
    (r.1, before.2.push r.2)

/-- The rounds of R171, in order. -/
def allRounds : List (Fin 8) := [0, 1, 2, 3, 4, 5, 6, 7]

/-- The KeyStates of the given rounds, all from one stream in order (R171). -/
def keyStates (P : Params) : List (Fin 8) → PrngState → List KeyState
  | [], _ => []
  | r :: rs, st =>
    let d := drawWords P (P.ksTweak r) (P.nksPred + 1) st
    P.ksMap r d.2 :: keyStates P rs d.1

/-- `DeriveSchedule` of 41_block_cipher.md R171, on a private stream (10_state.md R59), afresh in every call (R172). -/
def deriveSchedule (P : Params) (key nonce : Word64) : List KeyState :=
  keyStates P allRounds (seedStream P (key ^^^ nonce))

/-! ### Round function -/

/-- The round constant of a KeyState: `RC32[rci mod L32]` (R173). -/
def rc32At (P : Params) (rci : Word64) : Word32 :=
  P.rc32[rci.toNat % (P.l32Pred.val + 1)]'(Nat.mod_lt _ (Nat.succ_pos _))

/-- The forward form of an ARX step (R174). -/
def ArxStep.forward (c : Word32) (h : Word32 × Word32) : ArxStep → Word32 × Word32
  | .xb => (h.1, h.2 ^^^ h.1)
  | .xa => (h.1 ^^^ h.2, h.2)
  | .ab => (h.1, h.2 + h.1)
  | .aa => (h.1 + h.2, h.2)
  | .ra n => (rotl32 h.1 n.val, h.2)
  | .rb n => (h.1, rotl32 h.2 n.val)
  | .cxa => (h.1 ^^^ c, h.2)
  | .cxb => (h.1, h.2 ^^^ c)
  | .caa => (h.1 + c, h.2)
  | .cab => (h.1, h.2 + c)

/-- The inverse form of an ARX step (R174). -/
def ArxStep.inverse (c : Word32) (h : Word32 × Word32) : ArxStep → Word32 × Word32
  | .xb => (h.1, h.2 ^^^ h.1)
  | .xa => (h.1 ^^^ h.2, h.2)
  | .ab => (h.1, h.2 - h.1)
  | .aa => (h.1 - h.2, h.2)
  | .ra n => (rotr32 h.1 n.val, h.2)
  | .rb n => (h.1, rotr32 h.2 n.val)
  | .cxa => (h.1 ^^^ c, h.2)
  | .cxb => (h.1, h.2 ^^^ c)
  | .caa => (h.1 - c, h.2)
  | .cab => (h.1, h.2 - c)

/-- `ArxF` of R174: the forward forms, first to last. -/
def arxF (seq : List ArxStep) (c : Word32) (h : Word32 × Word32) : Word32 × Word32 :=
  seq.foldl (fun acc st => ArxStep.forward c acc st) h

/-- `ArxB` of R174: the inverse forms, last to first. -/
def arxB (seq : List ArxStep) (c : Word32) (h : Word32 × Word32) : Word32 × Word32 :=
  seq.foldr (fun st acc => ArxStep.inverse c acc st) h

/-- `MixF` of 41_block_cipher.md R176. -/
def mixF (choice : Mixing) (v subkey : Word64) (rotB : Fin 64) : Word64 :=
  match choice with
  | .xorSubkey => v ^^^ subkey
  | .complementXorSubkey => (~~~v) ^^^ subkey
  | .rotateLeft => rotl64 v rotB.val
  | .rotateRight => rotr64 v rotB.val

/-- `MixB` of 41_block_cipher.md R177. -/
def mixB (choice : Mixing) (v subkey : Word64) (rotB : Fin 64) : Word64 :=
  match choice with
  | .xorSubkey => v ^^^ subkey
  | .complementXorSubkey => (~~~v) ^^^ subkey
  | .rotateLeft => rotr64 v rotB.val
  | .rotateRight => rotl64 v rotB.val

/-- `Flip` of 41_block_cipher.md R178. -/
def flip (v : Word64) (rotA : Fin 64) : Word64 := v ^^^ ((1 : Word64) <<< rotA.val)

/-- `KeyMixF` of 41_block_cipher.md R179. -/
def keyMixF (v key subkey : Word64) : Word64 :=
  let v1 := v + (key ^^^ subkey)
  let v2 := rotr64 (v1 ^^^ key) 16
  v2 ^^^ rotl64 (key + subkey) 48

/-- `KeyMixB` of 41_block_cipher.md R180. -/
def keyMixB (v key subkey : Word64) : Word64 :=
  let v1 := v ^^^ rotl64 (key + subkey) 48
  let v2 := rotl64 v1 16 ^^^ key
  v2 - (key ^^^ subkey)

/-- `RoundF` of 41_block_cipher.md R181. -/
def roundF (P : Params) (v key : Word64) (k : KeyState) : Word64 :=
  let h := arxF P.arxSeq (rc32At P k.rci) (split v)
  let mixed := mixF k.choice (join h.1 h.2) k.subkey k.rotB
  keyMixF (flip mixed k.rotA) key k.subkey

/-- `RoundB` of 41_block_cipher.md R182. -/
def roundB (P : Params) (v key : Word64) (k : KeyState) : Word64 :=
  let unmixed := mixB k.choice (flip (keyMixB v key k.subkey) k.rotA) k.subkey k.rotB
  let h := arxB P.arxSeq (rc32At P k.rci) (split unmixed)
  join h.1 h.2

/-! ### Block functions and commands -/

/-- `EncryptBlock` of 41_block_cipher.md R184: rounds 0 to 7. -/
def encryptBlock (P : Params) (data key nonce : Word64) : Word64 :=
  (deriveSchedule P key nonce).foldl (fun v k => roundF P v key k) data

/-- `DecryptBlock` of 41_block_cipher.md R185: rounds 7 down to 0. -/
def decryptBlock (P : Params) (data key nonce : Word64) : Word64 :=
  (deriveSchedule P key nonce).foldr (fun k v => roundB P v key k) data

/-- Write BC_DATA (10_state.md R51). -/
def State.setBcData (s : State) (v : Word64) : State := s.setRegs { s.regs with bcData := v }

/-- `BC.ENC`, 41_block_cipher.md R188. -/
def execBcEnc (s : State) : Host.Outcome State Fault Refusal :=
  complete s (.ok (s.setBcData (encryptBlock s.params s.regs.bcData s.regs.bcKey s.regs.bcNonce)))

/-- `BC.DEC`, 41_block_cipher.md R189. -/
def execBcDec (s : State) : Host.Outcome State Fault Refusal :=
  complete s (.ok (s.setBcData (decryptBlock s.params s.regs.bcData s.regs.bcKey s.regs.bcNonce)))

end Sys2Proof.Machine
end

