-- ==== Sys2Proof/Machine/BlockTransform.lean ====
section
/-! DEFINITION. The BT unit (42_block_transform.md): padding, unpadding and the cascade as functions of byte strings and
blocks, and the commands BT.PAD, BT.UNPAD, BT.ENC and BT.DEC on the buffer. -/

namespace Sys2Proof.Machine

/-! ### Functions of byte strings and blocks -/

/-- `Pad` of 42_block_transform.md R210. -/
def pad (d : List Byte) : List Byte :=
  d ++ List.replicate (padLength d.length) (BitVec.ofNat 8 (padLength d.length))

/-- `Unpad` of 42_block_transform.md R211; none is InvalidPadding. -/
def unpad (t : List Byte) : Option (List Byte) :=
  match t.getLast? with
  | none => none
  | some b =>
    let p := b.toNat
    if p = 0 ∨ 8 < p ∨ t.length < p then none
    else if (t.drop (t.length - p)).all (fun x => x == b) then some (t.take (t.length - p))
    else none

/-- The nonce of cascade stage `i`: `nonce + (i + 1)` modulo 2^64 (42_block_transform.md R213). -/
def stageNonce (nonce : Word64) (i : Fin 4) : Word64 := nonce + BitVec.ofNat 64 (i.val + 1)

/-- The cascade stages, in order. -/
def allStages : List (Fin 4) := [0, 1, 2, 3]

/-- `CascadeF` of 42_block_transform.md R214: stages 0 to 3. -/
def cascadeF (P : Params) (sk : Fin 4 → Word64) (nonce w : Word64) : Word64 :=
  allStages.foldl (fun v i => encryptBlock P v (sk i) (stageNonce nonce i)) w

/-- `CascadeB` of 42_block_transform.md R215: stages 3 down to 0. -/
def cascadeB (P : Params) (sk : Fin 4 → Word64) (nonce w : Word64) : Word64 :=
  allStages.foldr (fun i v => decryptBlock P v (sk i) (stageNonce nonce i)) w

/-- `fromle8` of 42_block_transform.md R216: the little-endian value of the bytes. -/
def fromLe : List Byte → Word64
  | [] => 0
  | b :: bs => (fromLe bs <<< 8) ||| b.setWidth 64

/-- The low `n` bytes of a word, least significant first; `le8` of R216 is `toLe 8`. -/
def toLe : Nat → Word64 → List Byte
  | 0, _ => []
  | n + 1, v => v.setWidth 8 :: toLe n (v >>> 8)

/-- `Transform(f, s)` of R216 over the first `k` blocks of `t`. -/
def transformBlocks (f : Word64 → Word64) : Nat → List Byte → List Byte
  | 0, _ => []
  | k + 1, t => toLe 8 (f (fromLe (t.take 8))) ++ transformBlocks f k (t.drop 8)

/-- `Transform(f, s)` of R216. -/
def transform (f : Word64 → Word64) (t : List Byte) : List Byte := transformBlocks f (t.length / 8) t

/-- `TransformEncrypt` of R216. -/
def transformEncrypt (P : Params) (sk : Fin 4 → Word64) (nonce : Word64) (t : List Byte) : List Byte :=
  transform (cascadeF P sk nonce) t

/-- `TransformDecrypt` of R216. -/
def transformDecrypt (P : Params) (sk : Fin 4 → Word64) (nonce : Word64) (t : List Byte) : List Byte :=
  transform (cascadeB P sk nonce) t

/-! ### Commands -/

/-- `BT.PAD`, 42_block_transform.md R217. -/
def execBtPad (s : State) : Host.Outcome State Fault Refusal :=
  if s.len > s.params.bufSize then complete s (.error .bufferOverflow)
  else if s.len + padLength s.len > s.params.bufSize then complete s (.error .bufferOverflow)
  else
    let p := padLength s.len
    complete s (.ok ((s.setBuf (s.buf.fill s.len p (BitVec.ofNat 8 p))).setBtLen (s.len + p)))

/-- Whether bytes `a .. a+n-1` all equal `b`. -/
def Memory.allEqual (m : Memory) (a : Nat) (b : Byte) : Nat → Bool
  | 0 => true
  | n + 1 => decide (m.byteAt a = some b) && Memory.allEqual m (a + 1) b n

/-- `BT.UNPAD`, 42_block_transform.md R218, the checks in its order. -/
def execBtUnpad (s : State) : Host.Outcome State Fault Refusal :=
  if s.len > s.params.bufSize then complete s (.error .bufferOverflow)
  else if s.len = 0 then complete s (.error .invalidPadding)
  else
    match s.buf.byteAt (s.len - 1) with
    | none => complete s (.stuck .unwrittenByte)
    | some b =>
      let p := b.toNat
      if p = 0 ∨ p > 8 ∨ p > s.len then complete s (.error .invalidPadding)
      else if s.buf.hasBytes (s.len - p) p = false then complete s (.stuck .unwrittenByte)
      else if s.buf.allEqual (s.len - p) b p = false then complete s (.error .invalidPadding)
      else complete s (.ok (s.setBtLen (s.len - p)))

/-- The loop of R219 over `k` blocks from block `j` on, in index order (R229): block `j` is loaded with `MemRead(8j, 8)`,
and `f` of it stored with `MemWrite(8j, 8, ·)` (R216). None if a byte of a block holds no value. -/
def Memory.mapBlocks (f : Word64 → Word64) : (k j : Nat) → Memory → Option Memory
  | 0, _, m => some m
  | k + 1, j, m =>
    match m.load (8 * j) 8 with
    | none => none
    | some w => Memory.mapBlocks f k (j + 1) (m.store (8 * j) 8 (f w))

/-- The body that `BT.ENC` and `BT.DEC` share (R219, R220), with the block function `f`. -/
def runTransform (s : State) (f : Word64 → Word64) : Executed :=
  if s.len > s.params.bufSize then .error .bufferOverflow
  else if s.len % 8 ≠ 0 then .error .lengthNotMultiple
  else if s.buf.hasBytes 0 s.len = false then .stuck .unwrittenByte
  else
    match s.buf.mapBlocks f (s.len / 8) 0 with
    | none => .stuck .unwrittenByte
    | some m => .ok (s.setBuf m)

/-- `BT.ENC`, 42_block_transform.md R219. -/
def execBtEnc (s : State) : Host.Outcome State Fault Refusal :=
  complete s (runTransform s (cascadeF s.params s.subkey s.regs.btNonce))

/-- `BT.DEC`, 42_block_transform.md R220. -/
def execBtDec (s : State) : Host.Outcome State Fault Refusal :=
  complete s (runTransform s (cascadeB s.params s.subkey s.regs.btNonce))

end Sys2Proof.Machine
end

