-- ==== Sys2Proof/Machine/Control.lean ====
section
/-! DEFINITION. The control commands NOP, KEY.WIPE and BUF.WIPE (43_control.md). -/

namespace Sys2Proof.Machine

/-- `NOP`, 43_control.md R250: nothing but its completion. -/
def execNop (s : State) : Host.Outcome State Fault Refusal := complete s (.ok s)

/-- `KEY.WIPE`, 43_control.md R251. -/
def execKeyWipe (s : State) : Host.Outcome State Fault Refusal :=
  complete s (.ok (s.setRegs
    { s.regs with bcKey := 0, bcNonce := 0, btNonce := 0, btSk0 := 0, btSk1 := 0, btSk2 := 0, btSk3 := 0 }))

/-- `BUF.WIPE`, 43_control.md R252: it does not depend on BT_LEN. -/
def execBufWipe (s : State) : Host.Outcome State Fault Refusal :=
  complete s (.ok ((s.setBuf (Memory.zeros 0 s.params.bufSize)).setRegs { s.regs with btLen := 0, bcData := 0 }))

end Sys2Proof.Machine
end

