-- ==== Sys2Proof/Machine/Dispatch.lean ====
section
/-! DEFINITION. One arm per command: `Execute` of 60_exceptions.md R272 with its completion. -/

namespace Sys2Proof.Machine

def exec (i : Instr) (s : State) : Host.Outcome State Fault Refusal :=
  match i with
  | .nop => Sys2Proof.Machine.execNop s
  | .prngSeed => Sys2Proof.Machine.execPrngSeed s
  | .prngNext => Sys2Proof.Machine.execPrngNext s
  | .bcEnc => Sys2Proof.Machine.execBcEnc s
  | .bcDec => Sys2Proof.Machine.execBcDec s
  | .btPad => Sys2Proof.Machine.execBtPad s
  | .btUnpad => Sys2Proof.Machine.execBtUnpad s
  | .btEnc => Sys2Proof.Machine.execBtEnc s
  | .btDec => Sys2Proof.Machine.execBtDec s
  | .keyWipe => Sys2Proof.Machine.execKeyWipe s
  | .bufWipe => Sys2Proof.Machine.execBufWipe s

end Sys2Proof.Machine
end

