-- ==== Sys2Proof/Machine/HostBus.lean ====
section
/-! DEFINITION. Host accesses (20_memory.md R80 to R91): which the core admits, what a read returns, what a write does,
and the hazards of the BUSY period (70_reset_and_hazards.md R309 to R311, R318). -/

namespace Sys2Proof.Machine

/-- The host address of a device offset, `DEV_BASE + o` (20_memory.md R80); no rule of the core reads it. -/
def hostAddress (P : Params) (offset : Nat) : Nat := P.devBase + offset

/-- What an admitted host access reaches. -/
inductive Target where
  /-- The register window (20_memory.md R83): a named register, or none for a reserved offset (10_state.md R55). -/
  | register (r : Option RegName)
  /-- The buffer window (R84), by buffer offset. -/
  | buffer (a : Nat)
  deriving DecidableEq, Repr

/-- The accesses of R83 and R84; none is a bus error (R85), for a width, an alignment or an offset they do not admit. -/
def target (P : Params) (offset size : Nat) : Option Target :=
  if offset < 0x100 then
    if size = 8 ∧ offset % 8 = 0 then some (.register (RegName.ofOffset offset)) else none
  else if 0x10000 ≤ offset then
    if (size = 1 ∨ size = 2 ∨ size = 4 ∨ size = 8) ∧ (offset - 0x10000) % size = 0 ∧
        (offset - 0x10000) + size ≤ P.bufSize then
      some (.buffer (offset - 0x10000))
    else none
  else none

/-- The bits of an n-byte read at `a` that a predicate on buffer offsets selects, byte by byte. -/
def byteMask (sel : Nat → Bool) (a : Nat) : Nat → Word64
  | 0 => 0
  | n + 1 => (byteMask sel (a + 1) n <<< 8) ||| (if sel a then 0xFF else 0)

/-- Whether one of the bytes `a .. a+n-1` is selected. -/
def anyByte (sel : Nat → Bool) (a : Nat) : Nat → Bool
  | 0 => false
  | n + 1 => sel a || anyByte sel (a + 1) n

/-- A read of a register (20_memory.md R83). While BUSY = 1 a register of the pending command's write set returns a draw
(70_reset_and_hazards.md R311); a reserved offset returns 0 (10_state.md R55). -/
def State.hostReadReg (s : State) : Option RegName → State × Word64
  | none => (s, 0)
  | some r =>
    if s.ctl.busy && s.pendingWritesReg r then (s.nextDraw, Config.draw s.draws) else (s, s.readReg r)

/-- An n-byte read of the buffer (20_memory.md R84), zero-extended. A byte with no value is a model fault
(60_exceptions.md R286), drawn or not (R311). While BUSY = 1, each byte in the pending command's write set is a draw and
the others are their values (R96, R311, C8; assumption log 7). -/
def State.hostReadBuf (s : State) (a n : Nat) : Host.Outcome (State × Word64) Fault Refusal :=
  match s.buf.load a n with
  | none => .fault .unwrittenByte
  | some v =>
    if s.ctl.busy && anyByte s.pendingWritesByte a n then
      let drawn := byteMask s.pendingWritesByte a n
      .next (s.nextDraw, (v &&& ~~~drawn) ||| (Config.draw s.draws &&& drawn))
    else .next (s, v)

/-- `HostRead` of 20_memory.md R83 and R84: the value read and the state after it, which differs only in the draws taken. -/
def hostRead (s : State) (offset size : Nat) : Host.Outcome (State × Word64) Fault Refusal :=
  match target s.params offset size with
  | none => .refused .busError
  | some (.register r) => .next (s.hostReadReg r)
  | some (.buffer a) => s.hostReadBuf a size

/-- A write of a register: refused for an operand register while BUSY = 1 (70_reset_and_hazards.md R310), ignored for a
reserved offset (20_memory.md R90). -/
def State.hostWriteReg (s : State) (v : Word64) : Option RegName → Host.Outcome State Fault Refusal
  | none => .next s
  | some r => if s.ctl.busy && r.isOperand then .refused .writeWhileBusy else .next (s.writeReg r v)

/-- A write of the buffer (20_memory.md R84), refused while BUSY = 1 (70_reset_and_hazards.md R310). -/
def State.hostWriteBuf (s : State) (a n : Nat) (v : Word64) : Host.Outcome State Fault Refusal :=
  if s.ctl.busy then .refused .writeWhileBusy else .next (s.setBuf (s.buf.store a n v))

/-- `HostWrite` of 20_memory.md R83 and R84. -/
def hostWrite (s : State) (offset size : Nat) (v : Word64) : Host.Outcome State Fault Refusal :=
  match target s.params offset size with
  | none => .refused .busError
  | some (.register r) => s.hostWriteReg v r
  | some (.buffer a) => s.hostWriteBuf a size v

end Sys2Proof.Machine
end

