-- ==== Sys2Proof/Machine/Agents.lean ====
section
/-! DEFINITION. The steps of the agents: the engine completes the pending command (60_exceptions.md R272), the host makes
one access of its program (10_state.md R31, R32). -/

namespace Sys2Proof.Machine

/-- The engine's step: `Complete` of 60_exceptions.md R272 on the decoded PENDING, an illegal word completing with
ILLEGAL_COMMAND (R263). It is enabled only while BUSY = 1 (10_state.md R32): otherwise nothing happens (log 4). -/
def engineStep (s : State) : Host.Outcome State Fault Refusal :=
  if s.ctl.busy then
    match decode s.ctl.pending with
    | .ok i => exec i s
    | .error _ => complete s (.error .illegalCommand)
  else .next s

/-- The host's step index goes up by 1 (10_state.md R31). -/
def State.hostAdvance (s : State) : State := s.setHost { s.host with pc := s.host.pc + 1 }

/-- A value read becomes an observation (30_encoding.md R121). -/
def State.observe (s : State) (offset size : Nat) (v : Word64) : State :=
  s.setHost { s.host with seen := s.host.seen ++ [{ offset := offset, size := size, value := v }] }

/-- One turn of the `wait` loop of 30_encoding.md R122: read STATUS, and go on once bit 0 of the value read is 0. -/
def waitStep (s : State) : Host.Outcome State Fault Refusal :=
  chain (hostRead s (RegName.offset .status) 8) fun r =>
    let s1 := r.1.observe (RegName.offset .status) 8 r.2
    .next (if r.2.getLsbD 0 then s1 else s1.hostAdvance)

/-- One bus access of the host (30_encoding.md R121, R123). -/
def accessStep (s : State) : BusAccess → Host.Outcome State Fault Refusal
  | .read offset size => chain (hostRead s offset size) fun r => .next (r.1.observe offset size r.2).hostAdvance
  | .write offset size v => chain (hostWrite s offset size v) fun s1 => .next s1.hostAdvance

/-- The host's step: the operation at its step index. After its last operation it does nothing more
(70_reset_and_hazards.md R317; log 4). -/
def hostStep (s : State) : Host.Outcome State Fault Refusal :=
  match s.host.program[s.host.pc]? with
  | none => .next s
  | some .wait => waitStep s
  | some (.access a) => accessStep s a

/-- The step of the mover whose turn it is. -/
def moverStep (s : State) : Mover → Host.Outcome State Fault Refusal
  | .engine => engineStep s
  | .host => hostStep s
  | .reset => .next s.coreReset

end Sys2Proof.Machine
end

