-- ==== Sys2Proof/Machine/Script.lean ====
section
/-! DEFINITION. Host scripts (30_encoding.md R120 to R123): the mnemonics, and the expansion of a script's lines into the
host operations of the machine. -/

namespace Sys2Proof.Machine

/-- The mnemonic of a command (R114, R120), as characters. -/
def mnemonic : Instr → List Char
  | .nop => ['N', 'O', 'P']
  | .prngSeed => ['P', 'R', 'N', 'G', '.', 'S', 'E', 'E', 'D']
  | .prngNext => ['P', 'R', 'N', 'G', '.', 'N', 'E', 'X', 'T']
  | .bcEnc => ['B', 'C', '.', 'E', 'N', 'C']
  | .bcDec => ['B', 'C', '.', 'D', 'E', 'C']
  | .btPad => ['B', 'T', '.', 'P', 'A', 'D']
  | .btUnpad => ['B', 'T', '.', 'U', 'N', 'P', 'A', 'D']
  | .btEnc => ['B', 'T', '.', 'E', 'N', 'C']
  | .btDec => ['B', 'T', '.', 'D', 'E', 'C']
  | .keyWipe => ['K', 'E', 'Y', '.', 'W', 'I', 'P', 'E']
  | .bufWipe => ['B', 'U', 'F', '.', 'W', 'I', 'P', 'E']

/-- Every command, in the order of R114. -/
def allCommands : List Instr :=
  [.nop, .prngSeed, .prngNext, .bcEnc, .bcDec, .btPad, .btUnpad, .btEnc, .btDec, .keyWipe, .bufWipe]

/-- The assembler of R120: a mnemonic in any case to its command; none for any other text (assumption log 19). -/
def assemble (text : List Char) : Option Instr :=
  allCommands.find? (fun i => mnemonic i == text.map Char.toUpper)

/-- `rd NAME` (R121). -/
def rdReg (r : RegName) : HostOp := .access (.read r.offset 8)

/-- `wr NAME, v` (R121). -/
def wrReg (r : RegName) (v : Word64) : HostOp := .access (.write r.offset 8 v)

/-- The one-byte writes of `wrbuf` (R122). -/
def wrBytes (a : Nat) : List Byte → List HostOp
  | [] => []
  | b :: bs => .access (.write (0x10000 + a) 1 (b.setWidth 64)) :: wrBytes (a + 1) bs

/-- The expansion of a script line (R121, R122). `expect` reads its register; the value it names is the program's claim
and no state. -/
def expand : ScriptOp → List HostOp
  | .wr r v => [wrReg r v]
  | .rd r => [rdReg r]
  | .wrb a n v => [.access (.write (0x10000 + a) n v)]
  | .rdb a n => [.access (.read (0x10000 + a) n)]
  | .cmd m => [wrReg .cmd (encode m)]
  | .cmdw v => [wrReg .cmd v]
  | .wait => [.wait]
  | .exec m => [wrReg .cmd (encode m), .wait]
  | .seed v => [wrReg .prngSeed v, wrReg .cmd (encode .prngSeed), .wait]
  | .next t => [wrReg .prngTweak t, wrReg .cmd (encode .prngNext), .wait, rdReg .prngOut]
  | .ack => [wrReg .status 0xE]
  | .wrbuf a bytes => wrBytes a bytes
  | .expect r _ => [rdReg r]

/-- The host program of a script (R123). -/
def assembleScript (lines : List ScriptOp) : List HostOp := lines.flatMap expand

/-- The host agent about to run a script: its step index starts at 0 (10_state.md R31). -/
def State.withScript (s : State) (lines : List ScriptOp) : State :=
  s.setHost { program := assembleScript lines, pc := 0, seen := [] }

end Sys2Proof.Machine
end

