-- ==== Sys2Proof/Machine/Step.lean ====
section
/-! DEFINITION. One step of the machine: one atomic transition of one agent (20_memory.md R89, R94), and where the host's
tools place a command. -/

namespace Sys2Proof.Machine

/-- The next mover's step, with that mover taken off the schedule. -/
def step (s : State) : Host.Outcome State Fault Refusal := moverStep s.popMover s.nextMover

/-- The command word of `nbits` bits of `w` accepted and the engine's turn next, so that the next step decodes and
completes it (assumption log 5). -/
def State.withFetchWord (s : State) (nbits w : Nat) : State := s.placeCommand (tableWord nbits w)

end Sys2Proof.Machine
end

