-- ==== Sys2Proof/WellFormed.lean ====
section
/-! DEFINITION. Well-formedness of the syntax: commands, command words and host operations. -/

namespace Sys2Proof

/-- A command has no operand and no immediate (30_encoding.md R118, R119), so every term of `Instr` is well formed. -/
def Instr.wf : Instr → Bool
  | .nop | .prngSeed | .prngNext | .bcEnc | .bcDec | .btPad | .btUnpad | .btEnc | .btDec | .keyWipe | .bufWipe => true

/-- A legal command word: RSVD is 0 and OPC is assigned (R111, R112, R115). -/
def commandWordWf (v : Word64) : Bool :=
  rsvdField v == 0 && (commandOfOpc (opcField v)).isSome

/-- The widths a host access may have: 1, 2, 4 or 8 bytes (20_memory.md R83, R84). -/
def accessSizeWf (size : Nat) : Bool :=
  size == 1 || size == 2 || size == 4 || size == 8

namespace Machine

/-- A bus access to the device: a width of R83 and R84, and an offset of the 17-bit device space of R80. Whether the
core admits it is decided when it is made (`target`). -/
def BusAccess.wf : BusAccess → Bool
  | .read offset size => accessSizeWf size && decide (offset < 0x20000)
  | .write offset size _ => accessSizeWf size && decide (offset < 0x20000)

/-- An operation of a host program. -/
def HostOp.wf : HostOp → Bool
  | .access a => a.wf
  | .wait => true

/-- A line of a host script: "n in 1, 2, 4, 8" for `wrb` and `rdb` (30_encoding.md R121). -/
def ScriptOp.wf : ScriptOp → Bool
  | .wrb _ n _ => accessSizeWf n
  | .rdb _ n => accessSizeWf n
  | .wr _ _ | .rd _ | .cmd _ | .cmdw _ | .wait | .exec _ | .seed _ | .next _ | .ack | .wrbuf _ _ | .expect _ _ => true

end Machine
end Sys2Proof
end

