-- ==== Sys2Proof/Laws/PerInstr.lean ====
section
/-! SUPPORT. Facts about every command as syntax, one lemma per constructor. -/

namespace Sys2Proof.Laws

/-- The word of a command is a legal command word and decodes to that command (30_encoding.md R111, R114). -/
def RoundTrip.Statement (i : Instr) : Prop :=
  i.wf = true ∧ commandWordWf (encode i) = true ∧ decode (encode i) = .ok i

theorem RoundTrip.nop : RoundTrip.Statement .nop := ⟨rfl, rfl, rfl⟩
theorem RoundTrip.prngSeed : RoundTrip.Statement .prngSeed := ⟨rfl, rfl, rfl⟩
theorem RoundTrip.prngNext : RoundTrip.Statement .prngNext := ⟨rfl, rfl, rfl⟩
theorem RoundTrip.bcEnc : RoundTrip.Statement .bcEnc := ⟨rfl, rfl, rfl⟩
theorem RoundTrip.bcDec : RoundTrip.Statement .bcDec := ⟨rfl, rfl, rfl⟩
theorem RoundTrip.btPad : RoundTrip.Statement .btPad := ⟨rfl, rfl, rfl⟩
theorem RoundTrip.btUnpad : RoundTrip.Statement .btUnpad := ⟨rfl, rfl, rfl⟩
theorem RoundTrip.btEnc : RoundTrip.Statement .btEnc := ⟨rfl, rfl, rfl⟩
theorem RoundTrip.btDec : RoundTrip.Statement .btDec := ⟨rfl, rfl, rfl⟩
theorem RoundTrip.keyWipe : RoundTrip.Statement .keyWipe := ⟨rfl, rfl, rfl⟩
theorem RoundTrip.bufWipe : RoundTrip.Statement .bufWipe := ⟨rfl, rfl, rfl⟩

end Sys2Proof.Laws
end

