-- ==== Sys2Proof/Safety.lean ====
section
/-! DEFINITION. What claims call a safe run, and the invariant of the machine. -/

namespace Sys2Proof.Machine

/-- The facts about a state that every step keeps. -/
structure State.Inv (s : State) : Prop where
  /-- The buffer is in its canonical form. -/
  bufWf : Memory.wf s.buf = true
  /-- Only bytes of the buffer hold values (20_memory.md R81). -/
  bufInside : ∀ c ∈ s.buf, c.1 < s.params.bufSize
  /-- "ERRCODE is nonzero exactly when ERR = 1" (10_state.md R42). -/
  errcodeExact : s.ctl.errcode ≠ 0 ↔ s.ctl.err = true
  /-- Code 6 and the reserved codes are never raised (60_exceptions.md R260, R268). -/
  errcodeRaised : s.ctl.errcode.toNat ≤ 5
  /-- While BUSY = 1, acceptance has cleared DONE and ERR, and only completion sets them (10_state.md R38, R39). -/
  busyClean : s.ctl.busy = true → s.ctl.done = false ∧ s.ctl.err = false
  /-- Until a seeding the PRNG words and PRNG_OUT hold their reset values (10_state.md R46 to R48). -/
  unseededZero : s.ctl.seeded = false → s.regs.prng = { x := 0, y := 0, acc := 0, ctr := 0 } ∧ s.regs.prngOut = 0

/-- A step that neither faults nor is refused. -/
def SafeStep (s : State) : Prop := ∃ t, step s = .next t

/-- `k` steps in a row are safe. -/
def SafeRun : Nat → State → Prop
  | 0, _ => True
  | k + 1, s => ∃ t, step s = .next t ∧ SafeRun k t

/-- The state after a command that completed with the error `code`: only the STATUS fields of 60_exceptions.md R261 and
R272 differ from the state before. -/
def State.failedWith (s : State) (code : Byte) : State :=
  { s with ctl := { s.ctl with err := true, errcode := code, busy := false, done := true } }

/-- The flags after a command that completed without an error and sets no flag of its own. -/
def CompletedOk (s t : State) : Prop := t.ctl = { s.ctl with busy := false, done := true }

/-- The frame of a command: every register outside its write set (STATUS apart), every buffer byte outside its write set,
and all that is not the core's, read as before (30_encoding.md R118). -/
def FrameOf (i : Instr) (s t : State) : Prop :=
  (∀ r, r ≠ .status → writesReg i r = false → t.readReg r = s.readReg r) ∧
    (∀ a, s.writesByte i a = false → t.buf.byteAt a = s.buf.byteAt a) ∧
    t.variant = s.variant ∧ t.host = s.host ∧ t.schedule = s.schedule ∧ t.draws = s.draws

end Sys2Proof.Machine
end

