-- ==== Sys2Proof/Certificates/Slice0/Obligations.lean ====
section
/-! DEFINITION. The statements for the provers. Each docstring names the rule of the spec it formalises. -/

open Sys2Proof Sys2Proof.Machine

/-! ### Encoding -/

/-- 30_encoding.md R114: the eleven command words, written out from the opcode map, decode to their commands. -/
def Obligations.DecodesTheElevenCommandWords : Prop :=
  decode 0x0000000000000000 = .ok .nop ∧ decode 0x0000000000000001 = .ok .prngSeed ∧
  decode 0x0000000000000002 = .ok .prngNext ∧ decode 0x0000000000000010 = .ok .bcEnc ∧
  decode 0x0000000000000011 = .ok .bcDec ∧ decode 0x0000000000000020 = .ok .btPad ∧
  decode 0x0000000000000021 = .ok .btUnpad ∧ decode 0x0000000000000022 = .ok .btEnc ∧
  decode 0x0000000000000023 = .ok .btDec ∧ decode 0x0000000000000030 = .ok .keyWipe ∧
  decode 0x0000000000000031 = .ok .bufWipe

/-- 30_encoding.md R111: every command is well formed, its word is legal, and it decodes to the command. -/
def Obligations.EveryCommandRoundTrips : Prop := ∀ i, Sys2Proof.Laws.RoundTrip.Statement i

/-- 30_encoding.md R111 and R112: of all 2^64 words, exactly the word of a command decodes to it, and a word with a bit of
63:8 set is illegal whatever its OPC. -/
def Obligations.OnlyItsOwnWordDecodesToACommand : Prop :=
  (∀ (v : Word64) (i : Instr), decode v = .ok i ↔ v = encode i) ∧
  (∀ v : Word64, (∃ b, 8 ≤ b ∧ b < 64 ∧ v.getLsbD b = true) → decode v = .error .reservedBits)

/-- 30_encoding.md R120: the assembler turns a mnemonic of R114, in any case, into its command word. -/
def Obligations.AssemblerReadsMnemonicsInAnyCase : Prop :=
  (∀ (i : Instr) (text : List Char), text.map Char.toUpper = mnemonic i → (assemble text).map encode = some (encode i)) ∧
  allCommands.map mnemonic = ["NOP", "PRNG.SEED", "PRNG.NEXT", "BC.ENC", "BC.DEC", "BT.PAD", "BT.UNPAD", "BT.ENC", "BT.DEC",
    "KEY.WIPE", "BUF.WIPE"].map String.toList

/-! ### Steps -/

/-- 60_exceptions.md R272: when the engine's turn comes while BUSY = 1, the step is the pending command's meaning, in the
state with that turn taken off the schedule (the model's own input, assumption log 3). -/
def Obligations.StepRunsThePendingCommand : Prop :=
  ∀ (s : State) (i : Instr), s.ctl.busy = true → s.nextMover = .engine → decode s.ctl.pending = .ok i →
    step s = exec i { s with schedule := s.schedule.tail }

/-- The model's way to place a command (assumption log 5): the step after it runs exactly that command, in the state in
which the host's CMD write of its word has just been accepted. -/
def Obligations.PlacedCommandRunsNext : Prop :=
  ∀ (s : State) (i : Instr), decodeTableWord 64 (encode i).toNat = some i ∧
    step (s.withFetchWord 64 (encode i).toNat) =
      exec i { s with ctl := { s.ctl with pending := encode i, busy := true, done := false, err := false, errcode := 0 } }

/-- 30_encoding.md R115 with 60_exceptions.md R263: every word that is none of the eleven is accepted like any other, and
its completion sets ERR and ERRCODE = 0x01 and changes nothing else. -/
def Obligations.IllegalWordsCompleteWithIllegalCommand : Prop :=
  ∀ (s : State) (v : Word64), s.ctl.busy = false → (∀ i, v ≠ encode i) →
    ∃ t, hostWrite s 0x20 8 v = .next t ∧ t.ctl.busy = true ∧
      engineStep t = .next { s with ctl :=
        { s.ctl with pending := v, busy := false, done := true, err := true, errcode := 0x01 } }

/-- 60_exceptions.md R272 with R286: the engine's turn ends every pending command, legal or not: BUSY is 0 and DONE is 1
afterwards, unless the command read a buffer byte with no value. Whose turn it is, is the model's schedule (assumption log 3). -/
def Obligations.PendingCommandCompletesOrFaults : Prop :=
  ∀ s : State, s.ctl.busy = true → s.nextMover = .engine →
    (∃ t, step s = .next t ∧ t.ctl.busy = false ∧ t.ctl.done = true) ∨ step s = .fault .unwrittenByte

/-- 10_state.md R31 and R32 with 30_encoding.md R121 and R122: when the host moves next, the step is the host's, in the state
with that turn taken off the schedule (the model's own input, assumption log 3). A write has the effect of `hostWrite`, a read
that of `hostRead` with the value recorded (log 14), and a stop of the access stops the host. The step index goes up by 1 and
the program stays, except that `wait` stays where it is while BUSY = 1; after the last operation nothing happens (log 4). -/
def Obligations.HostStepAdvancesTheIndex : Prop :=
  (∀ s : State, s.nextMover = .host → step s = hostStep { s with schedule := s.schedule.tail }) ∧
  (∀ (s t : State) (a : BusAccess), s.host.program[s.host.pc]? = some (.access a) → hostStep s = .next t →
    t.host.pc = s.host.pc + 1 ∧ t.host.program = s.host.program) ∧
  (∀ (s : State) (o n : Nat) (v : Word64), s.host.program[s.host.pc]? = some (.access (.write o n v)) →
    (∀ u, hostWrite s o n v = .next u →
      u.host = s.host ∧ hostStep s = .next { u with host := { s.host with pc := s.host.pc + 1 } }) ∧
    (∀ f, hostWrite s o n v = .fault f → hostStep s = .fault f) ∧
    (∀ q, hostWrite s o n v = .refused q → hostStep s = .refused q)) ∧
  (∀ (s : State) (o n : Nat), s.host.program[s.host.pc]? = some (.access (.read o n)) →
    (∀ (u : State) (v : Word64), hostRead s o n = .next (u, v) →
      hostStep s = .next { u with host :=
        { s.host with pc := s.host.pc + 1, seen := s.host.seen ++ [{ offset := o, size := n, value := v }] } }) ∧
    (∀ f, hostRead s o n = .fault f → hostStep s = .fault f) ∧
    (∀ q, hostRead s o n = .refused q → hostStep s = .refused q)) ∧
  (∀ s : State, s.host.program[s.host.pc]? = some .wait →
    ∃ t, hostStep s = .next t ∧ t.host.program = s.host.program ∧
      t.host.pc = (if s.ctl.busy then s.host.pc else s.host.pc + 1) ∧
      t.host.seen = s.host.seen ++ [{ offset := 0x18, size := 8, value := s.ctl.statusWord }] ∧
      t.ctl = s.ctl ∧ t.regs = s.regs ∧ t.buf = s.buf) ∧
  (∀ s : State, s.host.program[s.host.pc]? = none → hostStep s = .next s)

/-! ### Reset -/

/-- 70_reset_and_hazards.md R301 with 10_state.md R33 and R34: what reset leaves in every register a host can read, the
buffer and the IRQ line. -/
def Obligations.ResetLeavesTheSpecValues : Prop :=
  State.reset.readReg .id = 0x4855584600000001 ∧
  State.reset.readReg .cfg = cfgWord State.reset.params ∧
  (∀ r, r ≠ .id → r ≠ .cfg → State.reset.readReg r = 0) ∧
  State.reset.ctl.busy = false ∧ State.reset.ctl.done = false ∧ State.reset.ctl.err = false ∧
  State.reset.ctl.ovr = false ∧ State.reset.ctl.seeded = false ∧ State.reset.ctl.errcode = 0 ∧
  State.reset.ctl.irq = false ∧
  (∀ a, State.reset.buf.byteAt a = none) ∧
  (∀ a, a < State.reset.params.bufSize → hostRead State.reset (0x10000 + a) 1 = .fault .unwrittenByte) ∧
  (∀ o, o < 0x100 → o % 8 = 0 → RegName.ofOffset o = none → hostRead State.reset o 8 = .next (State.reset, 0))

/-- 70_reset_and_hazards.md R304: a reset, in any state and while a command is pending too, gives exactly the reset state of
the core. That the host agent, the schedule and the draws stay is the model's choice (assumption log 13), and so is PENDING
0 (log 10). -/
def Obligations.ResetEventGivesTheResetState : Prop :=
  ∀ s : State, s.nextMover = .reset →
    ∃ t, step s = .next t ∧ t.ctl = State.reset.ctl ∧ t.regs = State.reset.regs ∧ t.buf = State.reset.buf ∧
      t.variant = s.variant ∧ t.host = s.host ∧ t.schedule = s.schedule.tail ∧ t.draws = s.draws

/-! ### Host accesses -/

/-- 10_state.md R33 and R34: ID and CFG read their constants at every time, with CFG's four fields, and ignore writes. -/
def Obligations.IdAndCfgAreConstants : Prop :=
  ∀ s : State,
    hostRead s 0x00 8 = .next (s, 0x4855584600000001) ∧ (∀ v, hostWrite s 0x00 8 v = .next s) ∧
    hostRead s 0x08 8 = .next (s, s.readReg .cfg) ∧ (∀ v, hostWrite s 0x08 8 v = .next s) ∧
    ((s.readReg .cfg).extractLsb' 0 8).toNat = s.params.l64 ∧
    ((s.readReg .cfg).extractLsb' 8 8).toNat = s.params.l32 ∧
    ((s.readReg .cfg).extractLsb' 16 32).toNat = s.params.bufSize ∧
    (s.readReg .cfg).extractLsb' 48 16 = 0 ∧
    (s.variant = .ref → s.readReg .cfg = 0x0000000020001010) ∧
    (∀ t, step s = .next t → t.readReg .id = s.readReg .id ∧ t.readReg .cfg = s.readReg .cfg)

/-- 10_state.md R35: CTRL holds IE alone, and may be written while BUSY is 1. -/
def Obligations.CtrlHoldsOnlyTheInterruptEnable : Prop :=
  State.reset.ctl.ie = false ∧
  ∀ (s : State) (v : Word64),
    hostWrite s 0x10 8 v = .next { s with ctl := { s.ctl with ie := v.getLsbD 0 } } ∧
    hostRead s 0x10 8 = .next (s, (BitVec.ofBool s.ctl.ie).setWidth 64) ∧
    s.ctl.irq = (s.ctl.ie && s.ctl.done)

/-- 10_state.md R36: the fields of STATUS as a read returns them, and what a host write of it does, exactly. -/
def Obligations.StatusReadsItsFieldsAndClearsByWritingOne : Prop :=
  State.reset.readReg .status = 0 ∧
  (∀ s : State, ∃ w, hostRead s 0x18 8 = .next (s, w) ∧
    w.getLsbD 0 = s.ctl.busy ∧ w.getLsbD 1 = s.ctl.done ∧ w.getLsbD 2 = s.ctl.err ∧ w.getLsbD 3 = s.ctl.ovr ∧
    w.getLsbD 4 = s.ctl.seeded ∧ w.extractLsb' 5 3 = 0 ∧ w.extractLsb' 8 8 = s.ctl.errcode ∧ w.extractLsb' 16 48 = 0) ∧
  (∀ (s : State) (v : Word64), ∃ t, hostWrite s 0x18 8 v = .next t ∧
    t = { s with ctl := { s.ctl with done := t.ctl.done, err := t.ctl.err, errcode := t.ctl.errcode, ovr := t.ctl.ovr } } ∧
    t.ctl.done = (if v.getLsbD 1 = true then false else s.ctl.done) ∧
    t.ctl.err = (if v.getLsbD 2 = true then false else s.ctl.err) ∧
    t.ctl.errcode = (if v.getLsbD 2 = true then 0 else s.ctl.errcode) ∧
    t.ctl.ovr = (if v.getLsbD 3 = true then false else s.ctl.ovr))

/-- 60_exceptions.md R271: a CMD write is accepted when idle, whatever the word, and dropped with OVR set when busy. -/
def Obligations.CmdWriteAcceptsOrOverruns : Prop :=
  ∀ (s : State) (v : Word64),
    (s.ctl.busy = false →
      ∃ t, hostWrite s 0x20 8 v = .next t ∧ t.ctl.irq = false ∧
        t = { s with ctl := { s.ctl with pending := v, busy := true, done := false, err := false, errcode := 0 } }) ∧
    (s.ctl.busy = true → hostWrite s 0x20 8 v = .next { s with ctl := { s.ctl with ovr := true } })

/-- 10_state.md R55: the reserved offsets read 0 and ignore writes, and they are the aligned offsets from 0xA8 up. -/
def Obligations.ReservedOffsetsReadZeroAndIgnoreWrites : Prop :=
  (∀ o, o ≤ 0xF8 → o % 8 = 0 → ((∃ r : RegName, r.offset = o) ↔ o < 0xA8)) ∧
  ∀ (s : State) (o : Nat) (v : Word64), 0xA8 ≤ o → o ≤ 0xF8 → o % 8 = 0 →
    hostRead s o 8 = .next (s, 0) ∧ hostWrite s o 8 v = .next s

/-- 20_memory.md R90: no host read changes anything (the draws are the model's own count, assumption log 6), and a write of
a read-only register is ignored, busy or not. -/
def Obligations.ReadsAndReadOnlyWritesHaveNoEffect : Prop :=
  (∀ (s t : State) (o n : Nat) (v : Word64), hostRead s o n = .next (t, v) → t = { s with draws := t.draws }) ∧
  (∀ (s : State) (r : RegName) (v : Word64),
    r ∈ [RegName.id, .cfg, .prngOut, .prngX, .prngY, .prngAcc, .prngCtr] → hostWrite s r.offset 8 v = .next s)

/-- 10_state.md R44, R45, R49 to R54: while BUSY = 0 a host write of a RW operand register stores the value (BT_LEN its low
32 bits), reads back, and changes no other register, flag or byte. -/
def Obligations.OperandRegistersStoreWhatIsWritten : Prop :=
  ∀ (s : State) (r : RegName) (v : Word64), r.isOperand = true → s.ctl.busy = false →
    ∃ t, hostWrite s r.offset 8 v = .next t ∧
      hostRead t r.offset 8 = .next (t, if r = .btLen then v &&& 0xFFFFFFFF else v) ∧
      (∀ q, q ≠ r → t.readReg q = s.readReg q) ∧ t = { s with regs := t.regs }

/-- 20_memory.md R85: exactly the accesses that R83 and R84 do not admit get the bus error; in the model they are refused. -/
def Obligations.UnadmittedAccessesAreBusErrors : Prop :=
  ∀ (s : State) (o n : Nat) (v : Word64),
    let admitted :=
      (o < 0x100 ∧ n = 8 ∧ o % 8 = 0) ∨
      (0x10000 ≤ o ∧ (n = 1 ∨ n = 2 ∨ n = 4 ∨ n = 8) ∧ (o - 0x10000) % n = 0 ∧ (o - 0x10000) + n ≤ s.params.bufSize)
    (¬ admitted → hostRead s o n = .refused .busError ∧ hostWrite s o n v = .refused .busError) ∧
    (admitted → hostRead s o n ≠ .refused .busError ∧ hostWrite s o n v ≠ .refused .busError)

/-- 00_scope.md R13 through the accesses of 20_memory.md R84: an admitted write to the buffer while idle puts bits
8k+7:8k into byte a+k and no other byte changes; a read is the little-endian value of its bytes, and a model fault if one
has no value. -/
def Obligations.BufferAccessesAreLittleEndian : Prop :=
  ∀ (s : State) (a n : Nat), s.ctl.busy = false → (n = 1 ∨ n = 2 ∨ n = 4 ∨ n = 8) → a % n = 0 →
    a + n ≤ s.params.bufSize →
    (∀ v : Word64, ∃ t, hostWrite s (0x10000 + a) n v = .next t ∧ t = { s with buf := t.buf } ∧
      (∀ k, k < n → t.buf.byteAt (a + k) = some (v.extractLsb' (8 * k) 8)) ∧
      (∀ x, x < a ∨ a + n ≤ x → t.buf.byteAt x = s.buf.byteAt x)) ∧
    ((∀ k, k < n → (s.buf.byteAt (a + k)).isSome = true) →
      ∃ w, hostRead s (0x10000 + a) n = .next (s, w) ∧ w.toNat < 2 ^ (8 * n) ∧
        ∀ k, k < n → s.buf.byteAt (a + k) = some (w.extractLsb' (8 * k) 8)) ∧
    ((∃ k, k < n ∧ s.buf.byteAt (a + k) = none) → hostRead s (0x10000 + a) n = .fault .unwrittenByte)

/-- 70_reset_and_hazards.md R310: while BUSY = 1 writes of operand registers and of buffer bytes are refused, writes of CTRL
and STATUS act as usual, and writes of RO registers and reserved offsets are ignored. -/
def Obligations.BusyWritesOfOperandsAreRefused : Prop :=
  ∀ (s : State) (v : Word64), s.ctl.busy = true →
    (∀ r, r ∈ [RegName.prngSeed, .prngTweak, .bcKey, .bcNonce, .bcData, .btNonce, .btSk0, .btSk1, .btSk2, .btSk3, .btLen] →
      hostWrite s r.offset 8 v = .refused .writeWhileBusy) ∧
    (∀ a n, (n = 1 ∨ n = 2 ∨ n = 4 ∨ n = 8) → a % n = 0 → a + n ≤ s.params.bufSize →
      hostWrite s (0x10000 + a) n v = .refused .writeWhileBusy) ∧
    hostWrite s 0x10 8 v = .next { s with ctl := s.ctl.writeCtrl v } ∧
    hostWrite s 0x18 8 v = .next { s with ctl := s.ctl.writeStatus v } ∧
    (∀ r, r ∈ [RegName.id, .cfg, .prngOut, .prngX, .prngY, .prngAcc, .prngCtr] → hostWrite s r.offset 8 v = .next s) ∧
    (∀ o, 0xA8 ≤ o → o ≤ 0xF8 → o % 8 = 0 → hostWrite s o 8 v = .next s)

/-- 70_reset_and_hazards.md R311 with 20_memory.md R96: while BUSY = 1 a read of a register or byte in the pending command's
write set returns the next draw, and any other read returns the value. A byte with no value faults, drawn or not.
The model's part: the draw comes from a counted stream (assumption log 6); a read of the buffer of any admitted width draws
the bytes of the write set and no others (log 7); the write set is the pending command's whether it will succeed or fail, and
empty while PENDING is an illegal word (log 8); STATUS is in no write set (log 9). -/
def Obligations.BusyReadsOfTheWriteSetAreDraws : Prop :=
  ∀ s : State, s.ctl.busy = true →
    (∀ i, decode s.ctl.pending = .ok i →
      (∀ r, writesReg i r = true →
        hostRead s r.offset 8 = .next ({ s with draws := s.draws + 1 }, Config.draw s.draws)) ∧
      (∀ r, writesReg i r = false → hostRead s r.offset 8 = .next (s, s.readReg r))) ∧
    (∀ e, decode s.ctl.pending = .error e → ∀ r, hostRead s r.offset 8 = .next (s, s.readReg r)) ∧
    (∀ r, r ∈ [RegName.id, .cfg, .ctrl, .status] → hostRead s r.offset 8 = .next (s, s.readReg r)) ∧
    (∀ drawn : Nat → Bool,
      (∃ i, decode s.ctl.pending = .ok i ∧ drawn = s.writesByte i) ∨
        (∃ e, decode s.ctl.pending = .error e ∧ drawn = fun _ => false) →
      ∀ a n : Nat, (n = 1 ∨ n = 2 ∨ n = 4 ∨ n = 8) → a % n = 0 → a + n ≤ s.params.bufSize →
        ((∃ k, k < n ∧ s.buf.byteAt (a + k) = none) → hostRead s (0x10000 + a) n = .fault .unwrittenByte) ∧
        ((∀ k, k < n → (s.buf.byteAt (a + k)).isSome = true) →
          ∃ t w, hostRead s (0x10000 + a) n = .next (t, w) ∧ w.toNat < 2 ^ (8 * n) ∧
            ((∃ k, k < n ∧ drawn (a + k) = true) → t = { s with draws := s.draws + 1 }) ∧
            ((∀ k, k < n → drawn (a + k) = false) → t = s) ∧
            ∀ k, k < n →
              (drawn (a + k) = true → w.extractLsb' (8 * k) 8 = (Config.draw s.draws).extractLsb' (8 * k) 8) ∧
              (drawn (a + k) = false → s.buf.byteAt (a + k) = some (w.extractLsb' (8 * k) 8))))

/-- 30_encoding.md R118: the write sets, register by register and byte by byte (STATUS apart). -/
def Obligations.WriteSetsAreThoseOfTheOperandTable : Prop :=
  (∀ (i : Instr) (r : RegName), writesReg i r = true ↔
    (i = .prngSeed ∨ i = .prngNext) ∧ r ∈ [RegName.prngX, .prngY, .prngAcc, .prngCtr, .prngOut] ∨
    (i = .bcEnc ∨ i = .bcDec) ∧ r = .bcData ∨
    (i = .btPad ∨ i = .btUnpad) ∧ r = .btLen ∨
    i = .keyWipe ∧ r ∈ [RegName.bcKey, .bcNonce, .btNonce, .btSk0, .btSk1, .btSk2, .btSk3] ∨
    i = .bufWipe ∧ r ∈ [RegName.btLen, .bcData]) ∧
  (∀ (s : State) (i : Instr) (a : Nat), s.writesByte i a = true ↔
    i = .btPad ∧ s.len ≤ a ∧ a < s.len + (8 - s.len % 8) ∨
    (i = .btEnc ∨ i = .btDec) ∧ a < s.len ∨
    i = .bufWipe ∧ a < s.params.bufSize)

/-- 10_state.md R62 with 60_exceptions.md R276: the line is IE AND DONE; it is cleared by a STATUS write with bit 1 set, by
acceptance and by IE = 0; a completion, failed or not, raises it when enabled; OVR does not touch it. -/
def Obligations.IrqFollowsEnableAndDone : Prop :=
  State.reset.ctl.irq = false ∧
  (∀ s : State, s.ctl.irq = true ↔ s.ctl.ie = true ∧ s.ctl.done = true) ∧
  (∀ (s t : State) (v : Word64), hostWrite s 0x18 8 v = .next t → v.getLsbD 1 = true → t.ctl.irq = false) ∧
  (∀ (s t : State) (v : Word64), hostWrite s 0x10 8 v = .next t → v.getLsbD 0 = false → t.ctl.irq = false) ∧
  (∀ (s t : State) (v : Word64), hostWrite s 0x20 8 v = .next t →
    (s.ctl.busy = false → t.ctl.irq = false) ∧ (s.ctl.busy = true → t.ctl.irq = s.ctl.irq)) ∧
  (∀ (i : Instr) (s t : State), exec i s = .next t → t.ctl.irq = s.ctl.ie)

/-! ### Commands -/

/-- 43_control.md R250: NOP completes and does nothing else; its acceptance has cleared ERR and ERRCODE. -/
def Obligations.NopOnlyCompletes : Prop :=
  decode 0x0000000000000000 = .ok .nop ∧
  (∀ s : State, ∃ t, exec .nop s = .next t ∧ CompletedOk s t ∧ FrameOf .nop s t) ∧
  (∀ (s : State), s.ctl.busy = false → ∃ t u, hostWrite s 0x20 8 (encode .nop) = .next t ∧ engineStep t = .next u ∧
    u.ctl.err = false ∧ u.ctl.errcode = 0)

/-- 40_prng.md R148 with R142: the words `Seed(PRNG_SEED)`, counter and PRNG_OUT 0, SEEDED 1, and no error, from any state. -/
def Obligations.PrngSeedLoadsTheSeededState : Prop :=
  decode 0x0000000000000001 = .ok .prngSeed ∧
  ∀ s : State, ∃ t, exec .prngSeed s = .next t ∧
    (let f := s.readReg .prngSeed ^^^ s.params.warmUp (s.readReg .prngSeed)
     (t.readReg .prngX, t.readReg .prngY, t.readReg .prngAcc) = s.params.initWords (s.readReg .prngSeed) f) ∧
    t.readReg .prngCtr = 0 ∧ t.readReg .prngOut = 0 ∧
    t.ctl = { s.ctl with seeded := true, busy := false, done := true } ∧ FrameOf .prngSeed s t

/-- 40_prng.md R149 with R145, R146 and R147: once seeded, PRNG.NEXT writes the words and the output of `PrngCore` on the
constants selected by the tweak, counter + tweak and acc before the call, and the counter goes up by 1 modulo 2^64. With
SEEDED = 0 it completes with NOT_SEEDED and changes nothing else (60_exceptions.md R264). -/
def Obligations.PrngNextAdvancesTheStream : Prop :=
  decode 0x0000000000000002 = .ok .prngNext ∧
  (∀ s : State, s.ctl.seeded = true → ∃ t, exec .prngNext s = .next t ∧
    (let tweak := s.readReg .prngTweak
     let ctr := s.readReg .prngCtr
     let acc := s.readReg .prngAcc
     let constant := fun i : Word64 => s.params.rc64.toList[i.toNat % s.params.l64]?.getD 0
     let st : PrngState := { x := s.readReg .prngX, y := s.readReg .prngY, acc := acc, ctr := ctr }
     (t.readReg .prngX, t.readReg .prngY, t.readReg .prngAcc, t.readReg .prngOut) =
        s.params.prngCore st tweak (constant tweak) (constant (ctr + tweak)) (constant acc) ∧
     t.readReg .prngCtr = BitVec.ofNat 64 ((ctr.toNat + 1) % 2 ^ 64)) ∧
    CompletedOk s t ∧ FrameOf .prngNext s t) ∧
  (∀ s : State, s.ctl.seeded = false → exec .prngNext s = .next (s.failedWith 0x02))

/-- The outputs of a sequence of PRNG.NEXT with the given tweaks; none if one does not complete. -/
def prngOutputs : State → List Word64 → Option (List Word64)
  | _, [] => some []
  | s, w :: ws =>
    match exec .prngNext { s with regs := { s.regs with prngTweak := w } } with
    | .next t => (prngOutputs t ws).map (fun os => t.readReg .prngOut :: os)
    | _ => none

/-- 40_prng.md R150 and R152: after PRNG.SEED the outputs depend on the seed and the tweaks alone, whatever the history. -/
def Obligations.SeedAndTweaksDetermineTheOutputs : Prop :=
  ∀ (s s' t t' : State) (ws : List Word64), s.variant = s'.variant → s.readReg .prngSeed = s'.readReg .prngSeed →
    exec .prngSeed s = .next t → exec .prngSeed s' = .next t' →
    prngOutputs t ws = prngOutputs t' ws ∧ (prngOutputs t ws).isSome = true

/-- The state with other PRNG words, PRNG_OUT and SEEDED. -/
def withPrngUnit (s : State) (st : PrngState) (out : Word64) (seeded : Bool) : State :=
  { s with regs := { s.regs with prng := st, prngOut := out }, ctl := { s.ctl with seeded := seeded } }

/-- 40_prng.md R153: no BC or BT command reads or changes the PRNG unit's state. -/
def Obligations.CipherCommandsIgnoreThePrngUnit : Prop :=
  ∀ (i : Instr), i ∈ [Instr.bcEnc, .bcDec, .btPad, .btUnpad, .btEnc, .btDec] →
    ∀ (s t : State), exec i s = .next t →
      t.regs.prng = s.regs.prng ∧ t.regs.prngOut = s.regs.prngOut ∧ t.ctl.seeded = s.ctl.seeded ∧
      ∀ st out seeded, exec i (withPrngUnit s st out seeded) = .next (withPrngUnit t st out seeded)

/-- 41_block_cipher.md R188 with R184: BC_DATA becomes the block encrypted under BC_KEY and BC_NONCE, from any state. -/
def Obligations.BcEncEncryptsTheBlock : Prop :=
  decode 0x0000000000000010 = .ok .bcEnc ∧
  ∀ s : State, ∃ t, exec .bcEnc s = .next t ∧
    t.readReg .bcData = encryptBlock s.params (s.readReg .bcData) (s.readReg .bcKey) (s.readReg .bcNonce) ∧
    CompletedOk s t ∧ FrameOf .bcEnc s t

/-- 41_block_cipher.md R189 with R185: BC_DATA becomes the block decrypted under BC_KEY and BC_NONCE, from any state, and
BC.ENC followed by BC.DEC restores BC_DATA. -/
def Obligations.BcDecDecryptsTheBlock : Prop :=
  decode 0x0000000000000011 = .ok .bcDec ∧
  (∀ s : State, ∃ t, exec .bcDec s = .next t ∧
    t.readReg .bcData = decryptBlock s.params (s.readReg .bcData) (s.readReg .bcKey) (s.readReg .bcNonce) ∧
    CompletedOk s t ∧ FrameOf .bcDec s t) ∧
  (∀ s t u : State, exec .bcEnc s = .next t → exec .bcDec t = .next u → u.readReg .bcData = s.readReg .bcData)

/-- 42_block_transform.md R217: with `n < BUF_SIZE` the pad bytes are written after the data and BT_LEN grows by `p`, which
on byte strings is `Pad`; otherwise BUFFER_OVERFLOW. -/
def Obligations.BtPadAppendsThePad : Prop :=
  decode 0x0000000000000020 = .ok .btPad ∧
  (∀ s : State, s.len < s.params.bufSize → ∃ t, exec .btPad s = .next t ∧
    (let p := 8 - s.len % 8
     t.len = s.len + p ∧ (∀ k, k < p → t.buf.byteAt (s.len + k) = some (BitVec.ofNat 8 p))) ∧
    (∀ d, s.buf.bytes 0 s.len = some d → t.buf.bytes 0 t.len = some (pad d)) ∧
    CompletedOk s t ∧ FrameOf .btPad s t) ∧
  (∀ s : State, s.params.bufSize ≤ s.len → exec .btPad s = .next (s.failedWith 0x05))

/-- 42_block_transform.md R218: the checks of BT.UNPAD in their order, each with its outcome, and on byte strings `Unpad`. -/
def Obligations.BtUnpadChecksAndRemovesThePad : Prop :=
  decode 0x0000000000000021 = .ok .btUnpad ∧
  (∀ s : State, s.params.bufSize < s.len → exec .btUnpad s = .next (s.failedWith 0x05)) ∧
  (∀ s : State, s.len = 0 → exec .btUnpad s = .next (s.failedWith 0x03)) ∧
  (∀ s : State, s.len ≤ s.params.bufSize → 0 < s.len →
    (s.buf.byteAt (s.len - 1) = none → exec .btUnpad s = .fault .unwrittenByte) ∧
    (∀ b : Byte, s.buf.byteAt (s.len - 1) = some b →
      let p := b.toNat
      (p = 0 ∨ 8 < p ∨ s.len < p → exec .btUnpad s = .next (s.failedWith 0x03)) ∧
      (1 ≤ p → p ≤ 8 → p ≤ s.len →
        ((∃ k, s.len - p ≤ k ∧ k < s.len ∧ s.buf.byteAt k = none) → exec .btUnpad s = .fault .unwrittenByte) ∧
        ((∀ k, s.len - p ≤ k → k < s.len → (s.buf.byteAt k).isSome = true) →
          ((∃ k, s.len - p ≤ k ∧ k < s.len ∧ s.buf.byteAt k ≠ some b) →
            exec .btUnpad s = .next (s.failedWith 0x03)) ∧
          ((∀ k, s.len - p ≤ k → k < s.len → s.buf.byteAt k = some b) →
            ∃ t, exec .btUnpad s = .next t ∧ t.len = s.len - p ∧ t.buf = s.buf ∧ CompletedOk s t ∧
              FrameOf .btUnpad s t))))) ∧
  (∀ (s : State) (d : List Byte), s.len ≤ s.params.bufSize → s.buf.bytes 0 s.len = some d →
    (unpad d = none → exec .btUnpad s = .next (s.failedWith 0x03)) ∧
    (∀ d', unpad d = some d' → ∃ t, exec .btUnpad s = .next t ∧ t.buf.bytes 0 t.len = some d'))

/-- `SK[0..3]` of 42_block_transform.md R212, by the names of the registers. -/
def cascadeKeys (s : State) (i : Fin 4) : Word64 :=
  s.readReg (if i = 0 then .btSk0 else if i = 1 then .btSk1 else if i = 2 then .btSk2 else .btSk3)

/-- The outcomes that R219 and R220 share, for a transform `f` of byte strings that acts as `g` on each little-endian block
(R216). -/
def TransformsTheBuffer (i : Instr) (f : State → List Byte → List Byte) (g : State → Word64 → Word64) : Prop :=
  (∀ s : State, s.params.bufSize < s.len → exec i s = .next (s.failedWith 0x05)) ∧
  (∀ s : State, s.len ≤ s.params.bufSize → s.len % 8 ≠ 0 → exec i s = .next (s.failedWith 0x04)) ∧
  (∀ s : State, s.len ≤ s.params.bufSize → s.len % 8 = 0 → (∃ a, a < s.len ∧ s.buf.byteAt a = none) →
    exec i s = .fault .unwrittenByte) ∧
  (∀ (s : State) (d : List Byte), s.len ≤ s.params.bufSize → s.len % 8 = 0 → s.buf.bytes 0 s.len = some d →
    ∃ t, exec i s = .next t ∧ t.buf.bytes 0 s.len = some (f s d) ∧ t.len = s.len ∧
      (∀ (j : Nat) (w : Word64), 8 * j < s.len →
        (∀ k, k < 8 → s.buf.byteAt (8 * j + k) = some (w.extractLsb' (8 * k) 8)) →
        ∀ k, k < 8 → t.buf.byteAt (8 * j + k) = some ((g s w).extractLsb' (8 * k) 8)) ∧
      CompletedOk s t ∧ FrameOf i s t)

/-- 42_block_transform.md R219 with R216: BT.ENC, its errors in their order, its model fault, and on byte strings
`TransformEncrypt` of the bytes up to BT_LEN, which is `CascadeF` of each block; every other byte reads as before. -/
def Obligations.BtEncTransformsTheBuffer : Prop :=
  decode 0x0000000000000022 = .ok .btEnc ∧
  TransformsTheBuffer .btEnc (fun s => transformEncrypt s.params (cascadeKeys s) (s.readReg .btNonce))
    (fun s => cascadeF s.params (cascadeKeys s) (s.readReg .btNonce))

/-- 42_block_transform.md R220: BT.DEC, as R219 with the backward cascade. -/
def Obligations.BtDecTransformsTheBuffer : Prop :=
  decode 0x0000000000000023 = .ok .btDec ∧
  TransformsTheBuffer .btDec (fun s => transformDecrypt s.params (cascadeKeys s) (s.readReg .btNonce))
    (fun s => cascadeB s.params (cascadeKeys s) (s.readReg .btNonce))

/-- 42_block_transform.md R221: a length above BUF_SIZE fails every BT command with BUFFER_OVERFLOW before any other
check. -/
def Obligations.BtCommandsCheckTheLengthFirst : Prop :=
  ∀ (i : Instr) (s : State), i ∈ [Instr.btPad, .btUnpad, .btEnc, .btDec] → s.params.bufSize < s.len →
    exec i s = .next (s.failedWith 0x05)

/-- 43_control.md R251: KEY.WIPE zeroes the seven key registers and nothing else. -/
def Obligations.KeyWipeZeroesTheKeys : Prop :=
  decode 0x0000000000000030 = .ok .keyWipe ∧
  ∀ s : State, ∃ t, exec .keyWipe s = .next t ∧
    (∀ r, r ∈ [RegName.bcKey, .bcNonce, .btNonce, .btSk0, .btSk1, .btSk2, .btSk3] → t.readReg r = 0) ∧
    CompletedOk s t ∧ FrameOf .keyWipe s t

/-- 43_control.md R252: BUF.WIPE gives every buffer byte the value 0 and zeroes BT_LEN and BC_DATA, whatever BT_LEN was. -/
def Obligations.BufWipeZeroesTheBuffer : Prop :=
  decode 0x0000000000000031 = .ok .bufWipe ∧
  ∀ s : State, ∃ t, exec .bufWipe s = .next t ∧
    (∀ a, a < s.params.bufSize → t.buf.byteAt a = some 0 ∧ hostRead t (0x10000 + a) 1 = .next (t, 0)) ∧
    t.readReg .btLen = 0 ∧ t.readReg .bcData = 0 ∧ CompletedOk s t ∧
    (∀ r, r ≠ .status → r ≠ .btLen → r ≠ .bcData → t.readReg r = s.readReg r) ∧
    (∀ a, s.params.bufSize ≤ a → s.buf.byteAt a = none → t.buf.byteAt a = none)

/-- 30_encoding.md R118: a command that answers a next state changes no register and no byte outside its write set, no flag
but those of its completion, and SEEDED only where it is PRNG.SEED. Bytes outside the buffer hold no value in any state a
run reaches (`State.Inv`), which BUF.WIPE needs. -/
def Obligations.CommandsChangeOnlyTheirWriteSet : Prop :=
  ∀ (i : Instr) (s t : State), s.Inv → exec i s = .next t →
    FrameOf i s t ∧ t.ctl.ie = s.ctl.ie ∧ t.ctl.ovr = s.ctl.ovr ∧ t.ctl.pending = s.ctl.pending ∧
    (i ≠ .prngSeed → t.ctl.seeded = s.ctl.seeded) ∧ t.ctl.busy = false ∧ t.ctl.done = true

/-- 60_exceptions.md R262 with R261: a command that meets an error, an illegal word among them, changes only ERR, ERRCODE,
BUSY and DONE; the codes are those of R260 that are ever raised. -/
def Obligations.FailedCommandsChangeOnlyStatus : Prop :=
  ∀ s t : State, s.ctl.busy = true → s.ctl.err = false → engineStep s = .next t → t.ctl.err = true →
    ∃ code : Byte, code ∈ [(0x01 : Byte), 0x02, 0x03, 0x04, 0x05] ∧ t = s.failedWith code

/-- 60_exceptions.md R286 (a): no command is refused, and only BT.UNPAD, BT.ENC and BT.DEC can meet a byte with no value. -/
def Obligations.OnlyBufferReadersCanFault : Prop :=
  ∀ (i : Instr) (s : State), (∀ q, exec i s ≠ .refused q) ∧
    (∀ f, exec i s = .fault f → i = .btUnpad ∨ i = .btEnc ∨ i = .btDec)

/-! ### Laws of the units, for every value of the parameters -/

/-- 00_scope.md R7: the constraints on the parameters hold of every `Params`. -/
def Obligations.ParametersMeetTheirConstraints : Prop :=
  ∀ P : Params, 1 ≤ P.l64 ∧ P.l64 ≤ 255 ∧ P.rc64.toList.length = P.l64 ∧ 1 ≤ P.l32 ∧ P.l32 ≤ 255 ∧
    P.rc32.toList.length = P.l32 ∧ 1 ≤ P.nks ∧ P.bufSize % 8 = 0 ∧ 8 ≤ P.bufSize ∧ P.bufSize ≤ 65536

/-- `st` is `Seed(seed)` of 40_prng.md R142, written out. -/
def SeedIs (P : Params) (seed : Word64) (st : PrngState) : Prop :=
  (st.x, st.y, st.acc) = P.initWords seed (seed ^^^ P.warmUp seed) ∧ st.ctr = 0

/-- `Next(st, tweak)` of 40_prng.md R146 gives the state `st'` and the word `out`, written out with R145 and R147. -/
def NextIs (P : Params) (st : PrngState) (tweak : Word64) (st' : PrngState) (out : Word64) : Prop :=
  let constant := fun i : Word64 => P.rc64.toList[i.toNat % P.l64]?.getD 0
  (st'.x, st'.y, st'.acc, out) =
    P.prngCore st tweak (constant tweak) (constant (st.ctr + tweak)) (constant st.acc) ∧
  st'.ctr = BitVec.ofNat 64 ((st.ctr.toNat + 1) % 2 ^ 64)

/-- 41_block_cipher.md R171: there are 8 KeyStates, and that of round r is KS_MAP of the NKS words that the calls number
`r * NKS` to `r * NKS + NKS - 1` of the one stream `Seed(key ^ nonce)` give with the tweaks KS_TWEAK; so the schedule depends
on key and nonce only through their XOR. -/
def Obligations.ScheduleHasEightRoundsAndNeedsOnlyTheXor : Prop :=
  (∀ (P : Params) (k n : Word64), (deriveSchedule P k n).length = 8 ∧
    ∃ (st : Nat → PrngState) (w : Nat → Word64), SeedIs P (k ^^^ n) (st 0) ∧
      (∀ (r : Fin 8) (j : Nat), j < P.nks →
        NextIs P (st (r.val * P.nks + j)) (P.ksTweak r j) (st (r.val * P.nks + j + 1)) (w (r.val * P.nks + j))) ∧
      ∀ r : Fin 8, (deriveSchedule P k n)[r.val]? =
        some (P.ksMap r (Vector.ofFn fun j : Fin (P.nksPred + 1) => w (r.val * P.nks + j.val)))) ∧
  (∀ (P : Params) (k n k' n' : Word64), k ^^^ n = k' ^^^ n' → deriveSchedule P k n = deriveSchedule P k' n')

/-- 41_block_cipher.md R174: the forward and the inverse form of each step, and the order in which ArxF and ArxB apply them. -/
def Obligations.ArxStepsFollowTheirTable : Prop :=
  (∀ (c a b : Word32) (n : RotAmount),
    ArxStep.forward c (a, b) .xb = (a, b ^^^ a) ∧ ArxStep.inverse c (a, b) .xb = (a, b ^^^ a) ∧
    ArxStep.forward c (a, b) .xa = (a ^^^ b, b) ∧ ArxStep.inverse c (a, b) .xa = (a ^^^ b, b) ∧
    ArxStep.forward c (a, b) .ab = (a, b + a) ∧ ArxStep.inverse c (a, b) .ab = (a, b - a) ∧
    ArxStep.forward c (a, b) .aa = (a + b, b) ∧ ArxStep.inverse c (a, b) .aa = (a - b, b) ∧
    ArxStep.forward c (a, b) (.ra n) = (a.rotateLeft n.val, b) ∧
    ArxStep.inverse c (a, b) (.ra n) = (a.rotateRight n.val, b) ∧
    ArxStep.forward c (a, b) (.rb n) = (a, b.rotateLeft n.val) ∧
    ArxStep.inverse c (a, b) (.rb n) = (a, b.rotateRight n.val) ∧
    ArxStep.forward c (a, b) .cxa = (a ^^^ c, b) ∧ ArxStep.inverse c (a, b) .cxa = (a ^^^ c, b) ∧
    ArxStep.forward c (a, b) .cxb = (a, b ^^^ c) ∧ ArxStep.inverse c (a, b) .cxb = (a, b ^^^ c) ∧
    ArxStep.forward c (a, b) .caa = (a + c, b) ∧ ArxStep.inverse c (a, b) .caa = (a - c, b) ∧
    ArxStep.forward c (a, b) .cab = (a, b + c) ∧ ArxStep.inverse c (a, b) .cab = (a, b - c)) ∧
  (∀ (c : Word32) (h : Word32 × Word32), arxF [] c h = h ∧ arxB [] c h = h) ∧
  (∀ (x : ArxStep) (seq : List ArxStep) (c : Word32) (h : Word32 × Word32),
    arxF (x :: seq) c h = arxF seq c (ArxStep.forward c h x) ∧
    arxB (x :: seq) c h = ArxStep.inverse c (arxB seq c h) x) ∧
  (∀ (seq : List ArxStep) (c a b : Word32), arxB seq c (arxF seq c (a, b)) = (a, b))

/-- 41_block_cipher.md R181 and R182, written out with the constant of R173, Split and Join (R175), the mixing functions (R176,
R177), the bit flip (R178) and the key mixing (R179, R180); the ARX layer is that of `Obligations.ArxStepsFollowTheirTable`. -/
def Obligations.RoundsComposeTheirLayers : Prop :=
  (∀ (P : Params) (v key : Word64) (k : KeyState),
    roundF P v key k =
      (let c := P.rc32.toList[k.rci.toNat % P.l32]?.getD 0
       let h := arxF P.arxSeq c (v.extractLsb' 32 32, v.extractLsb' 0 32)
       let joined : Word64 := h.1 ++ h.2
       let mixed := match k.choice with
         | .xorSubkey => joined ^^^ k.subkey
         | .complementXorSubkey => ~~~joined ^^^ k.subkey
         | .rotateLeft => joined.rotateLeft k.rotB.val
         | .rotateRight => joined.rotateRight k.rotB.val
       let added := (mixed ^^^ (1 <<< k.rotA.val)) + (key ^^^ k.subkey)
       (added ^^^ key).rotateRight 16 ^^^ (key + k.subkey).rotateLeft 48)) ∧
  (∀ (P : Params) (v key : Word64) (k : KeyState),
    roundB P v key k =
      (let c := P.rc32.toList[k.rci.toNat % P.l32]?.getD 0
       let turned := (v ^^^ (key + k.subkey).rotateLeft 48).rotateLeft 16 ^^^ key
       let flipped := (turned - (key ^^^ k.subkey)) ^^^ (1 <<< k.rotA.val)
       let unmixed := match k.choice with
         | .xorSubkey => flipped ^^^ k.subkey
         | .complementXorSubkey => ~~~flipped ^^^ k.subkey
         | .rotateLeft => flipped.rotateRight k.rotB.val
         | .rotateRight => flipped.rotateLeft k.rotB.val
       let h := arxB P.arxSeq c (unmixed.extractLsb' 32 32, unmixed.extractLsb' 0 32)
       h.1 ++ h.2))

/-- 41_block_cipher.md R184 and R185: encryption runs the forward rounds 0 to 7 on the 8 KeyStates of the schedule of its key and
nonce, decryption the backward rounds 7 down to 0 on the same ones. -/
def Obligations.BlockFunctionsRunEightRounds : Prop :=
  ∀ (P : Params) (key nonce : Word64), ∃ k0 k1 k2 k3 k4 k5 k6 k7 : KeyState,
    deriveSchedule P key nonce = [k0, k1, k2, k3, k4, k5, k6, k7] ∧
    ∀ data : Word64,
      (let f := fun v k => roundF P v key k
       encryptBlock P data key nonce = f (f (f (f (f (f (f (f data k0) k1) k2) k3) k4) k5) k6) k7) ∧
      (let b := fun v k => roundB P v key k
       decryptBlock P data key nonce = b (b (b (b (b (b (b (b data k7) k6) k5) k4) k3) k2) k1) k0)

/-- 41_block_cipher.md R174, R177, R178 and R180: each layer of the round is undone by its backward form. -/
def Obligations.RoundLayersAreInvertible : Prop :=
  (∀ (seq : List ArxStep) (c a b : Word32), arxB seq c (arxF seq c (a, b)) = (a, b)) ∧
  (∀ (ch : Mixing) (v sk : Word64) (n : Fin 64), mixB ch (mixF ch v sk n) sk n = v) ∧
  (∀ (v : Word64) (n : Fin 64), Sys2Proof.Machine.flip (Sys2Proof.Machine.flip v n) n = v) ∧
  (∀ v k sk : Word64, keyMixB (keyMixF v k sk) k sk = v)

/-- 41_block_cipher.md R183: the round inverse law, for every parameter value. -/
def Obligations.BackwardRoundUndoesForwardRound : Prop :=
  ∀ (P : Params) (v key : Word64) (k : KeyState), roundB P (roundF P v key k) key k = v

/-- 41_block_cipher.md R186: the block inverse law, for every parameter value, and encryption is a bijection. -/
def Obligations.DecryptBlockInvertsEncryptBlock : Prop :=
  ∀ (P : Params) (key nonce : Word64),
    (∀ data, decryptBlock P (encryptBlock P data key nonce) key nonce = data) ∧
    Function.Bijective (fun data => encryptBlock P data key nonce)

/-- 42_block_transform.md R210 and R211: padding gives the least multiple of 8 above the length, and unpadding undoes it. -/
def Obligations.UnpadInvertsPad : Prop :=
  ∀ d : List Byte,
    pad d = d ++ List.replicate (8 - d.length % 8) (BitVec.ofNat 8 (8 - d.length % 8)) ∧ (pad d).length % 8 = 0 ∧ d.length < (pad d).length ∧
    (pad d).length ≤ d.length + 8 ∧ unpad (pad d) = some d

/-- 42_block_transform.md R232: which changes of a pad byte unpadding rejects, and which change of the last byte it accepts. -/
def Obligations.PaddingRejectionLaw : Prop :=
  (∀ (d : List Byte) (k : Nat) (q : Byte), d.length ≤ k → k + 1 < (pad d).length → (pad d)[k]? ≠ some q →
    unpad ((pad d).set k q) = none) ∧
  (∀ (d : List Byte) (k : Nat) (b : Byte), d.length ≤ k → (pad d)[k]? = some b →
    unpad ((pad d).set k (b ^^^ 0xFF)) = none) ∧
  (∀ (d : List Byte) (q : Byte), 1 ≤ q.toNat → q.toNat ≤ 8 → q.toNat ≤ (pad d).length →
    (∀ j, (pad d).length - q.toNat ≤ j → j < (pad d).length → ((pad d).set ((pad d).length - 1) q)[j]? = some q) →
    unpad ((pad d).set ((pad d).length - 1) q) =
      some (((pad d).set ((pad d).length - 1) q).take ((pad d).length - q.toNat))) ∧
  unpad ((pad [0x41, 0x41, 0x41, 0x41, 0x41]).set 7 0x01) = some [0x41, 0x41, 0x41, 0x41, 0x41, 0x03, 0x03] ∧
  unpad [0x41, 0x41, 0x41, 0x05, 0x05, 0x05, 0x05, 0x01] = some [0x41, 0x41, 0x41, 0x05, 0x05, 0x05, 0x05]

/-- 42_block_transform.md R213: the four stages of the cascade, forward and backward (R214, R215), use the nonces
`nonce + 1` to `nonce + 4` modulo 2^64. -/
def Obligations.CascadeStagesUseCountedNonces : Prop :=
  (∀ (P : Params) (sk : Fin 4 → Word64) (nonce w : Word64),
    let n := fun k : Nat => BitVec.ofNat 64 ((nonce.toNat + k) % 2 ^ 64)
    cascadeF P sk nonce w = encryptBlock P (encryptBlock P (encryptBlock P (encryptBlock P w (sk 0) (n 1)) (sk 1) (n 2))
      (sk 2) (n 3)) (sk 3) (n 4) ∧
    cascadeB P sk nonce w = decryptBlock P (decryptBlock P (decryptBlock P (decryptBlock P w (sk 3) (n 4)) (sk 2) (n 3))
      (sk 1) (n 2)) (sk 0) (n 1)) ∧
  (∀ i : Fin 4, stageNonce 0xFFFFFFFFFFFFFFFF i = BitVec.ofNat 64 i.val)

/-- 42_block_transform.md R229 and R231: each output block of BT.ENC and BT.DEC is one function of its input block, the
same at every index and in every command with the same parameters, subkeys and nonce. -/
def Obligations.BlocksAreTransformedIndependently : Prop :=
  ∀ (i : Instr) (s t s' t' : State) (j j' : Nat) (w : Word64), i = .btEnc ∨ i = .btDec →
    s.variant = s'.variant → (∀ k, s.subkey k = s'.subkey k) → s.readReg .btNonce = s'.readReg .btNonce →
    s.ctl.err = false → s'.ctl.err = false → exec i s = .next t → exec i s' = .next t' →
    t.ctl.err = false → t'.ctl.err = false → 8 * j < s.len → 8 * j' < s'.len →
    s.buf.load (8 * j) 8 = some w → s'.buf.load (8 * j') 8 = some w →
    t.buf.load (8 * j) 8 = t'.buf.load (8 * j') 8 ∧ (t.buf.load (8 * j) 8).isSome = true

/-- 42_block_transform.md R230: the cascade round trip, on byte strings for every parameter value, and on the device. -/
def Obligations.CascadeRoundTripRestoresTheBuffer : Prop :=
  (∀ (P : Params) (sk : Fin 4 → Word64) (nonce : Word64) (b : List Byte),
    unpad (transformDecrypt P sk nonce (transformEncrypt P sk nonce (pad b))) = some b) ∧
  (∀ (s : State) (b : List Byte), s.ctl.err = false → s.len = b.length → s.buf.bytes 0 b.length = some b →
    b.length + (8 - b.length % 8) ≤ s.params.bufSize →
    ∃ t1 t2 t3 t4, exec .btPad s = .next t1 ∧ exec .btEnc t1 = .next t2 ∧ exec .btDec t2 = .next t3 ∧
      exec .btUnpad t3 = .next t4 ∧ t4.ctl.err = false ∧ t4.len = b.length ∧ t4.buf.bytes 0 b.length = some b)

/-! ### Invariants and whole-machine rules

Whose step a step is, `nextMover`, is the model's schedule (assumption log 3). -/

/-- The invariant of the machine holds at reset. -/
def Obligations.ResetMeetsTheInvariant : Prop := State.reset.Inv

/-- Every step keeps the invariant: the buffer's canonical form and bounds, ERRCODE nonzero exactly with ERR (10_state.md
R42) and never above 5 (60_exceptions.md R260), DONE and ERR clear while BUSY (R38, R39), and zero PRNG words until a
seeding. -/
def Obligations.StepKeepsTheInvariant : Prop := ∀ s t : State, s.Inv → step s = .next t → t.Inv

/-- 10_state.md R41: SEEDED becomes 1 by a completing PRNG.SEED only, and 0 by reset only; without it PRNG.NEXT fails. -/
def Obligations.OnlySeedingSetsSeeded : Prop :=
  State.reset.ctl.seeded = false ∧
  (∀ s t : State, step s = .next t → t.ctl.seeded ≠ s.ctl.seeded →
    (t.ctl.seeded = true ∧ s.nextMover = .engine ∧ s.ctl.busy = true ∧ decode s.ctl.pending = .ok .prngSeed) ∨
    (t.ctl.seeded = false ∧ s.nextMover = .reset)) ∧
  (∀ s t : State, exec .prngSeed s = .next t → t.ctl.seeded = true) ∧
  (∀ s : State, s.ctl.seeded = false → exec .prngNext s = .next (s.failedWith 0x02))

/-- 10_state.md R37: BUSY becomes 1 by the host's write of CMD only, which latches its word, and 0 by the engine's
completion or by reset only. -/
def Obligations.OnlyAcceptanceAndCompletionChangeBusy : Prop :=
  (∀ s t : State, step s = .next t → t.ctl.busy ≠ s.ctl.busy →
    (t.ctl.busy = true ∧ s.nextMover = .host ∧
      ∃ v, s.host.program[s.host.pc]? = some (.access (.write 0x20 8 v)) ∧ t.ctl.pending = v) ∨
    (t.ctl.busy = false ∧ (s.nextMover = .engine ∧ t.ctl.done = true ∨ s.nextMover = .reset))) ∧
  (∀ (s : State) (v : Word64), ∃ t, hostWrite s 0x20 8 v = .next t ∧ t.ctl.busy = true) ∧
  (∀ s t : State, engineStep s = .next t → t.ctl.busy = false)

/-- 10_state.md R40: OVR is set by a CMD write while BUSY = 1 only, and cleared by a STATUS write with bit 3 set or by reset
only. -/
def Obligations.OverrunIsSticky : Prop :=
  (∀ s t : State, step s = .next t →
    (s.ctl.ovr = false → t.ctl.ovr = true → s.nextMover = .host ∧ s.ctl.busy = true ∧
      ∃ v, s.host.program[s.host.pc]? = some (.access (.write 0x20 8 v))) ∧
    (s.ctl.ovr = true → t.ctl.ovr = false → s.nextMover = .reset ∨
      (s.nextMover = .host ∧
        ∃ v, s.host.program[s.host.pc]? = some (.access (.write 0x18 8 v)) ∧ v.getLsbD 3 = true))) ∧
  (∀ (s : State) (v : Word64), s.ctl.busy = true →
    hostWrite s 0x20 8 v = .next { s with ctl := { s.ctl with ovr := true } }) ∧
  (∀ (s t : State) (v : Word64), v.getLsbD 3 = true → hostWrite s 0x18 8 v = .next t → t.ctl.ovr = false)

/-- 10_state.md R47 and R48: only PRNG.SEED, PRNG.NEXT and reset change the PRNG words; no host access does. -/
def Obligations.OnlyPrngCommandsChangeThePrngWords : Prop :=
  ∀ s t : State, step s = .next t → t.regs.prng ≠ s.regs.prng →
    s.nextMover = .reset ∨
    (s.nextMover = .engine ∧ s.ctl.busy = true ∧
      (decode s.ctl.pending = .ok .prngSeed ∨ decode s.ctl.pending = .ok .prngNext))
end

