-- ==== Sys2Proof/Laws/Words.lean ====
section
/-! SUPPORT. The laws of the word operations: rotations (00_scope.md R11), Split and Join (41_block_cipher.md R175), and
the little-endian bytes of a word (42_block_transform.md R216). -/

namespace Sys2Proof.Machine

/-! ### Rotations -/

theorem rotateRight_rotateLeft {w : Nat} (v : BitVec w) (n : Nat) (h : n < w) :
    (v.rotateLeft n).rotateRight n = v := by
  apply BitVec.eq_of_getLsbD_eq
  intro i hi
  simp only [BitVec.getLsbD_rotateRight, BitVec.getLsbD_rotateLeft, Nat.mod_eq_of_lt h, Bool.cond_decide]
  by_cases h1 : i < w - n
  · rw [if_pos h1, if_neg (by omega), decide_eq_true (show n + i < w by omega), Bool.true_and]
    congr 1; omega
  · rw [if_neg h1, if_pos (by omega), decide_eq_true hi, Bool.true_and]
    congr 1; omega

theorem rotateLeft_rotateRight {w : Nat} (v : BitVec w) (n : Nat) (h : n < w) :
    (v.rotateRight n).rotateLeft n = v := by
  apply BitVec.eq_of_getLsbD_eq
  intro i hi
  simp only [BitVec.getLsbD_rotateRight, BitVec.getLsbD_rotateLeft, Nat.mod_eq_of_lt h, Bool.cond_decide]
  by_cases h1 : i < n
  · rw [if_pos h1, if_neg (by omega), decide_eq_true (show w - n + i < w by omega), Bool.true_and]
    congr 1; omega
  · rw [if_neg h1, if_pos (by omega), decide_eq_true hi, Bool.true_and]
    congr 1; omega

theorem rotr64_rotl64 (v : Word64) (n : Nat) (h : n < 64) : rotr64 (rotl64 v n) n = v := rotateRight_rotateLeft v n h
theorem rotl64_rotr64 (v : Word64) (n : Nat) (h : n < 64) : rotl64 (rotr64 v n) n = v := rotateLeft_rotateRight v n h
theorem rotr32_rotl32 (v : Word32) (n : Nat) (h : n < 32) : rotr32 (rotl32 v n) n = v := rotateRight_rotateLeft v n h

/-! ### Halves of a block -/

theorem join_getLsbD (a b : Word32) (i : Nat) :
    (join a b).getLsbD i = if i < 32 then b.getLsbD i else a.getLsbD (i - 32) := by
  rw [join]
  refine (BitVec.getLsbD_append (x := a) (y := b) (i := i)).trans ?_
  by_cases h : i < 32 <;> simp [h]

@[simp] theorem split_join (a b : Word32) : split (join a b) = (a, b) := by
  refine Prod.ext ?_ ?_ <;> apply BitVec.eq_of_getLsbD_eq <;> intro i hi <;>
    simp only [split, BitVec.getLsbD_extractLsb', join_getLsbD, decide_eq_true hi, Bool.true_and]
  · rw [if_neg (by omega), Nat.add_sub_cancel_left]
  · rw [if_pos (by omega), Nat.zero_add]

@[simp] theorem join_split (v : Word64) : join (split v).1 (split v).2 = v := by
  apply BitVec.eq_of_getLsbD_eq
  intro i hi
  rw [join_getLsbD]
  simp only [split, BitVec.getLsbD_extractLsb']
  by_cases h : i < 32
  · simp [h]
  · simp [h, show i - 32 < 32 by omega, show 32 + (i - 32) = i by omega]

/-! ### Bytes of a word -/

theorem byte_join (v : Word64) : ((v >>> 8) <<< 8) ||| (v.setWidth 8).setWidth 64 = v := by
  apply BitVec.eq_of_getLsbD_eq
  intro i hi
  simp only [BitVec.getLsbD_or, BitVec.getLsbD_shiftLeft, BitVec.getLsbD_ushiftRight, BitVec.getLsbD_setWidth]
  by_cases h : i < 8
  · simp [h, hi]
  · simp [h, hi, show 8 + (i - 8) = i by omega]

theorem byte_low (v : Word64) (b : Byte) : ((v <<< 8) ||| b.setWidth 64).setWidth 8 = b := by
  apply BitVec.eq_of_getLsbD_eq
  intro i hi
  simp [hi]

theorem byte_high (v : Word64) (b : Byte) (hv : v.toNat < 2 ^ 56) : ((v <<< 8) ||| b.setWidth 64) >>> 8 = v := by
  apply BitVec.eq_of_getLsbD_eq
  intro i hi
  simp only [BitVec.getLsbD_ushiftRight, BitVec.getLsbD_or, BitVec.getLsbD_shiftLeft, BitVec.getLsbD_setWidth]
  by_cases h : i < 56
  · simp [show 8 + i < 64 by omega]
  · have : v.getLsbD i = false := by
      rw [BitVec.getLsbD, Nat.testBit_lt_two_pow]
      exact lt_of_lt_of_le hv (Nat.pow_le_pow_right (by omega) (by omega))
    simp [this, show ¬ 8 + i < 64 by omega]

@[simp] theorem toLe_length (n : Nat) (v : Word64) : (toLe n v).length = n := by
  induction n generalizing v <;> simp [toLe, *]

theorem fromLe_toLe (n : Nat) (v : Word64) (h : v.toNat < 2 ^ (8 * n)) : fromLe (toLe n v) = v := by
  induction n generalizing v with
  | zero => apply BitVec.eq_of_toNat_eq; simp [toLe, fromLe] at h ⊢; omega
  | succ n ih =>
    rw [toLe, fromLe, ih, byte_join]
    rw [BitVec.toNat_ushiftRight, Nat.shiftRight_eq_div_pow, Nat.div_lt_iff_lt_mul (by norm_num), ← Nat.pow_add]
    rwa [show 8 * n + 8 = 8 * (n + 1) by omega]

/-- The value of `n` bytes, n at most 8, is below 2^8n. -/
theorem fromLe_lt (l : List Byte) (h : l.length ≤ 8) : (fromLe l).toNat < 2 ^ (8 * l.length) := by
  induction l with
  | nil => simp [fromLe]
  | cons b l ih =>
    have hl : l.length ≤ 7 := by simp at h; omega
    have := ih (by omega)
    rw [fromLe, BitVec.toNat_or, BitVec.toNat_shiftLeft, BitVec.toNat_setWidth, List.length_cons]
    have hp : 2 ^ (8 * l.length) * 256 = 2 ^ (8 * (l.length + 1)) := by
      rw [show 8 * (l.length + 1) = 8 * l.length + 8 by omega, Nat.pow_add]
    have h2 : 256 ≤ 2 ^ (8 * (l.length + 1)) := by
      rw [← hp]; exact Nat.le_mul_of_pos_left _ (Nat.two_pow_pos _)
    apply Nat.or_lt_two_pow
    · refine lt_of_le_of_lt (Nat.mod_le _ _) ?_
      rw [Nat.shiftLeft_eq, ← hp]; omega
    · refine lt_of_le_of_lt (Nat.mod_le _ _) ?_
      have := b.isLt; omega

theorem toLe_fromLe (n : Nat) (l : List Byte) (h : l.length = n) (hn : n ≤ 8) : toLe n (fromLe l) = l := by
  induction n generalizing l with
  | zero => simp at h; subst h; rfl
  | succ n ih =>
    cases l with
    | nil => simp at h
    | cons b l =>
      have hl : l.length = n := by simpa using h
      have := fromLe_lt l (by omega)
      rw [fromLe, toLe, byte_low, byte_high, ih l hl (by omega)]
      exact lt_of_lt_of_le this (Nat.pow_le_pow_right (by omega) (by omega))

@[simp] theorem transformBlocks_length (f : Word64 → Word64) (k : Nat) (t : List Byte) :
    (transformBlocks f k t).length = 8 * k := by
  induction k generalizing t with
  | zero => rfl
  | succ k ih => simp [transformBlocks, ih]; omega

@[simp] theorem pad_length (d : List Byte) : (pad d).length = d.length + padLength d.length := by simp [pad]

end Sys2Proof.Machine
end

