-- ==== Sys2Proof/Laws/Memory.lean ====
section
/-! SUPPORT. The laws of the buffer memory: read after write, canonical form, and the multi-byte operations through the
read of one byte. -/

namespace Sys2Proof.Machine
namespace Memory

/-! ### Canonical form -/

/-- Every listed offset of `m` lies above `a`. -/
def above (a : Nat) (m : Memory) : Prop := ∀ c ∈ m, a < c.1

theorem wf_cons_iff (c : Host.Cell) (m : Memory) : wf (c :: m) = true ↔ above c.1 m ∧ wf m = true := by
  induction m generalizing c with
  | nil => simp [wf, above]
  | cons d m ih =>
    have hd := ih d
    constructor
    · intro h
      have h' : c.1 < d.1 ∧ wf (d :: m) = true := by simpa [wf] using h
      refine ⟨?_, h'.2⟩
      intro e he
      rcases List.mem_cons.mp he with rfl | he
      · exact h'.1
      · exact lt_trans h'.1 ((hd.mp h'.2).1 e he)
    · rintro ⟨ha, hw⟩
      have : c.1 < d.1 := ha d (by simp)
      simp [wf, this, hw]

theorem above_setByte {a x : Nat} {b : Byte} {m : Memory} (hx : x < a) (h : above x m) : above x (m.setByte a b) := by
  induction m with
  | nil => intro c hc; simp [setByte] at hc; subst hc; exact hx
  | cons d m ih =>
    have hm : above x m := fun c hc => h c (List.mem_cons_of_mem _ hc)
    have hd : x < d.1 := h d (by simp)
    intro c hc
    simp only [setByte] at hc
    split at hc
    · rcases List.mem_cons.mp hc with rfl | hc
      · exact hx
      · exact h c hc
    · split at hc
      · rcases List.mem_cons.mp hc with rfl | hc
        · exact hx
        · exact hm c hc
      · rcases List.mem_cons.mp hc with rfl | hc
        · exact hd
        · exact ih hm c hc

theorem setByte_wf {m : Memory} (a : Nat) (b : Byte) (h : wf m = true) : wf (m.setByte a b) = true := by
  induction m with
  | nil => rfl
  | cons d m ih =>
    have hd := (wf_cons_iff d m).mp h
    simp only [setByte]
    split
    · next hlt =>
      refine (wf_cons_iff _ _).mpr ⟨?_, h⟩
      intro c hc
      rcases List.mem_cons.mp hc with rfl | hc
      · exact hlt
      · exact lt_trans hlt (hd.1 c hc)
    · split
      · next heq =>
        refine (wf_cons_iff _ _).mpr ⟨?_, hd.2⟩
        intro c hc
        exact heq ▸ hd.1 c hc
      · next hlt hne =>
        exact (wf_cons_iff _ _).mpr ⟨above_setByte (by omega) hd.1, ih hd.2⟩

theorem store_wf {m : Memory} (n a : Nat) (v : Word64) (h : wf m = true) : wf (m.store a n v) = true := by
  induction n generalizing m a v with
  | zero => exact h
  | succ n ih => exact ih _ _ (setByte_wf _ _ h)

theorem fill_wf {m : Memory} (n a : Nat) (b : Byte) (h : wf m = true) : wf (m.fill a n b) = true := by
  induction n generalizing m a with
  | zero => exact h
  | succ n ih => exact ih _ (setByte_wf _ _ h)

theorem zeros_mem {n a : Nat} {c : Host.Cell} (h : c ∈ zeros a n) : a ≤ c.1 ∧ c.1 < a + n := by
  induction n generalizing a with
  | zero => simp [zeros] at h
  | succ n ih =>
    rcases List.mem_cons.mp h with rfl | h
    · exact ⟨le_refl _, by simp⟩
    · have := ih h; omega

theorem zeros_wf (n a : Nat) : wf (zeros a n) = true := by
  induction n generalizing a with
  | zero => rfl
  | succ n ih =>
    refine (wf_cons_iff _ _).mpr ⟨?_, ih _⟩
    intro c hc
    have := zeros_mem hc
    show a < c.1
    omega

theorem mapBlocks_wf {f : Word64 → Word64} {k j : Nat} {m m' : Memory} (h : wf m = true)
    (hm : mapBlocks f k j m = some m') : wf m' = true := by
  induction k generalizing j m with
  | zero => simp [mapBlocks] at hm; exact hm ▸ h
  | succ k ih =>
    simp only [mapBlocks] at hm
    split at hm
    · cases hm
    · exact ih (store_wf _ _ _ h) hm

/-! ### Reading one byte after a write -/

@[simp] theorem byteAt_setByte (m : Memory) (a x : Nat) (b : Byte) :
    (m.setByte a b).byteAt x = if x = a then some b else m.byteAt x := by
  by_cases hx : x = a
  · subst hx
    rw [if_pos rfl]
    induction m with
    | nil => simp [setByte, byteAt]
    | cons d m ih =>
      simp only [setByte]
      split
      · simp [byteAt]
      · split
        · simp [byteAt]
        · next hne => simp [byteAt, hne, ih]
  · have hx' : ¬a = x := fun h => hx h.symm
    rw [if_neg hx]
    induction m with
    | nil => simp [setByte, byteAt, hx']
    | cons d m ih =>
      simp only [setByte]
      split
      · simp [byteAt, hx']
      · split
        · next heq => simp [byteAt, heq, hx']
        · simp [byteAt, ih]

theorem byteAt_fill (n : Nat) (m : Memory) (a x : Nat) (b : Byte) :
    (m.fill a n b).byteAt x = if a ≤ x ∧ x < a + n then some b else m.byteAt x := by
  induction n generalizing m a with
  | zero =>
    rw [fill, if_neg (by omega)]
  | succ n ih =>
    rw [fill, ih, byteAt_setByte]
    by_cases h1 : a + 1 ≤ x ∧ x < a + 1 + n
    · rw [if_pos h1, if_pos (by omega)]
    · rw [if_neg h1]
      by_cases h2 : x = a
      · rw [if_pos h2, if_pos (by omega)]
      · rw [if_neg h2, if_neg (by omega)]

/-- A store leaves every byte outside its range alone. -/
theorem byteAt_store_outside (n : Nat) (m : Memory) (a x : Nat) (v : Word64) (h : x < a ∨ a + n ≤ x) :
    (m.store a n v).byteAt x = m.byteAt x := by
  induction n generalizing m a v with
  | zero => rfl
  | succ n ih =>
    rw [store, ih _ _ _ (by omega), byteAt_setByte, if_neg (by omega)]

/-- Byte `k` of a store is `v[8k+7:8k]` (00_scope.md R13). -/
theorem byteAt_store_inside (n : Nat) (m : Memory) (a k : Nat) (v : Word64) (h : k < n) :
    (m.store a n v).byteAt (a + k) = some ((v >>> (8 * k)).setWidth 8) := by
  induction n generalizing m a v k with
  | zero => omega
  | succ n ih =>
    rw [store]
    cases k with
    | zero => rw [byteAt_store_outside _ _ _ _ _ (by omega), byteAt_setByte, if_pos (by omega)]; simp
    | succ k =>
      have := ih (m.setByte a (v.setWidth 8)) (a + 1) k (v >>> 8) (by omega)
      rw [show a + (k + 1) = a + 1 + k by omega, this, ← BitVec.shiftRight_add]
      congr 3
      omega

theorem byteAt_zeros (n a x : Nat) : (zeros a n).byteAt x = if a ≤ x ∧ x < a + n then some 0 else none := by
  induction n generalizing a with
  | zero =>
    rw [zeros, byteAt, if_neg (by omega)]
  | succ n ih =>
    rw [zeros, byteAt]
    by_cases h : a = x
    · simp [h]
    · rw [if_neg h, ih]
      by_cases h1 : a + 1 ≤ x ∧ x < a + 1 + n
      · rw [if_pos h1, if_pos (by omega)]
      · rw [if_neg h1, if_neg (by omega)]

/-! ### Ranges of bytes -/

theorem hasBytes_iff (n : Nat) (m : Memory) (a : Nat) :
    m.hasBytes a n = true ↔ ∀ k, k < n → (m.byteAt (a + k)).isSome = true := by
  induction n generalizing a with
  | zero => simp [hasBytes]
  | succ n ih =>
    rw [hasBytes, Bool.and_eq_true, ih]
    constructor
    · rintro ⟨h0, h⟩ k hk
      cases k with
      | zero => exact h0
      | succ k => have := h k (by omega); rwa [show a + 1 + k = a + (k + 1) by omega] at this
    · intro h
      refine ⟨h 0 (by omega), fun k hk => ?_⟩
      have := h (k + 1) (by omega)
      rwa [show a + (k + 1) = a + 1 + k by omega] at this

theorem allEqual_iff (n : Nat) (m : Memory) (a : Nat) (b : Byte) :
    m.allEqual a b n = true ↔ ∀ k, k < n → m.byteAt (a + k) = some b := by
  induction n generalizing a with
  | zero => simp [allEqual]
  | succ n ih =>
    rw [allEqual, Bool.and_eq_true, ih, decide_eq_true_iff]
    constructor
    · rintro ⟨h0, h⟩ k hk
      cases k with
      | zero => exact h0
      | succ k => have := h k (by omega); rwa [show a + 1 + k = a + (k + 1) by omega] at this
    · intro h
      refine ⟨h 0 (by omega), fun k hk => ?_⟩
      have := h (k + 1) (by omega)
      rwa [show a + (k + 1) = a + 1 + k by omega] at this

/-- What `bytes` answers: the bytes of the range, each of which holds a value. -/
theorem bytes_eq_some_iff (n : Nat) (m : Memory) (a : Nat) (t : List Byte) :
    m.bytes a n = some t ↔ t.length = n ∧ ∀ k (h : k < t.length), m.byteAt (a + k) = some t[k] := by
  induction n generalizing a t with
  | zero =>
    constructor
    · intro h
      have : t = [] := by simpa [bytes] using h.symm
      subst this
      exact ⟨rfl, fun k hk => absurd hk (by simp)⟩
    · rintro ⟨h, -⟩
      simp [bytes, List.length_eq_zero_iff.mp h]
  | succ n ih =>
    rw [bytes]
    constructor
    · intro h
      split at h
      · next b bs hb hbs =>
        obtain ⟨hl, hk⟩ := (ih _ _).mp hbs
        cases h
        refine ⟨by simp [hl], fun k hlt => ?_⟩
        cases k with
        | zero => simpa using hb
        | succ k =>
          have := hk k (by simpa using hlt)
          rw [show a + (k + 1) = a + 1 + k by omega, this]
          simp
      · cases h
    · rintro ⟨hl, hk⟩
      cases t with
      | nil => simp at hl
      | cons b bs =>
        have h0 : m.byteAt a = some b := hk 0 (Nat.succ_pos _)
        have h1 : m.bytes (a + 1) n = some bs := by
          refine (ih _ _).mpr ⟨by simpa using hl, fun k hlt => ?_⟩
          have := hk (k + 1) (by simpa using hlt)
          rw [show a + (k + 1) = a + 1 + k by omega] at this
          simpa using this
        rw [h0, h1]

/-- A load is the little-endian value of the byte string it covers. -/
theorem load_eq_bytes (n : Nat) (m : Memory) (a : Nat) : m.load a n = (m.bytes a n).map fromLe := by
  induction n generalizing a with
  | zero => rfl
  | succ n ih =>
    rw [load, bytes, ih]
    cases m.byteAt a with
    | none => rfl
    | some b => cases m.bytes (a + 1) n <;> rfl

/-- `bytes` depends on the bytes of its range alone. -/
theorem bytes_congr {m m' : Memory} (n a : Nat) (h : ∀ k, k < n → m.byteAt (a + k) = m'.byteAt (a + k)) :
    m.bytes a n = m'.bytes a n := by
  induction n generalizing a with
  | zero => rfl
  | succ n ih =>
    have h0 : m.byteAt a = m'.byteAt a := h 0 (by omega)
    rw [bytes, bytes, h0, ih (a + 1) fun k hk => by
      have := h (k + 1) (by omega)
      rwa [show a + (k + 1) = a + 1 + k by omega] at this]

theorem bytes_length {m : Memory} {n a : Nat} {t : List Byte} (h : m.bytes a n = some t) : t.length = n :=
  ((bytes_eq_some_iff n m a t).mp h).1

theorem bytes_append {m : Memory} {a n k : Nat} {x y : List Byte} (hx : m.bytes a n = some x)
    (hy : m.bytes (a + n) k = some y) : m.bytes a (n + k) = some (x ++ y) := by
  induction n generalizing a x with
  | zero => simp [bytes] at hx; subst hx; simpa using hy
  | succ n ih =>
    rw [bytes] at hx
    split at hx
    · next b bs hb hbs =>
      cases hx
      rw [show n + 1 + k = (n + k) + 1 by omega, bytes, hb,
        ih hbs (by rwa [show a + 1 + n = a + (n + 1) by omega])]
      rfl
    · cases hx

theorem bytes_split {m : Memory} {a n k : Nat} {t : List Byte} (h : m.bytes a (n + k) = some t) :
    m.bytes a n = some (t.take n) ∧ m.bytes (a + n) k = some (t.drop n) := by
  induction n generalizing a t with
  | zero => simpa [bytes] using h
  | succ n ih =>
    rw [show n + 1 + k = (n + k) + 1 by omega, bytes] at h
    split at h
    · next b bs hb hbs =>
      cases h
      obtain ⟨h1, h2⟩ := ih hbs
      rw [show a + 1 + n = a + (n + 1) by omega] at h2
      exact ⟨by rw [bytes, hb, h1]; rfl, h2⟩
    · cases h

/-- The bytes a store writes are those of the word, least significant first (00_scope.md R13). -/
theorem bytes_store (m : Memory) (n a : Nat) (v : Word64) : (m.store a n v).bytes a n = some (toLe n v) := by
  induction n generalizing m a v with
  | zero => rfl
  | succ n ih =>
    rw [bytes, store, ih, byteAt_store_outside _ _ _ _ _ (by omega), byteAt_setByte, if_pos rfl]
    rfl

/-- What `mapBlocks` does to a range that holds values: `transformBlocks` of its byte string, and no other byte changes
(42_block_transform.md R216, R219, R229). -/
theorem mapBlocks_bytes (f : Word64 → Word64) {k j : Nat} {m : Memory} {d : List Byte}
    (h : m.bytes (8 * j) (8 * k) = some d) :
    ∃ m', m.mapBlocks f k j = some m' ∧ m'.bytes (8 * j) (8 * k) = some (transformBlocks f k d) ∧
      ∀ x, x < 8 * j ∨ 8 * j + 8 * k ≤ x → m'.byteAt x = m.byteAt x := by
  induction k generalizing j m d with
  | zero => exact ⟨m, rfl, rfl, fun _ _ => rfl⟩
  | succ k ih =>
    rw [show 8 * (k + 1) = 8 + 8 * k by omega] at h ⊢
    obtain ⟨h1, h2⟩ := bytes_split h
    have hl : m.load (8 * j) 8 = some (fromLe (d.take 8)) := by rw [load_eq_bytes, h1]; rfl
    have h3 : (m.store (8 * j) 8 (f (fromLe (d.take 8)))).bytes (8 * (j + 1)) (8 * k) = some (d.drop 8) := by
      rw [← h2, show 8 * (j + 1) = 8 * j + 8 by omega]
      exact bytes_congr _ _ fun x _ => byteAt_store_outside _ _ _ _ _ (by omega)
    obtain ⟨m', hm, hb, ho⟩ := ih h3
    refine ⟨m', by rw [mapBlocks, hl]; exact hm, ?_, fun x hx => ?_⟩
    · refine bytes_append ?_ (by rwa [show 8 * j + 8 = 8 * (j + 1) by omega])
      rw [← bytes_store m 8 (8 * j)]
      exact bytes_congr _ _ fun x _ => ho _ (by omega)
    · rw [ho x (by omega), byteAt_store_outside _ _ _ _ _ (by omega)]

/-- The byte string of a range exists exactly when every byte holds a value. -/
theorem hasBytes_iff_bytes {m : Memory} {a n : Nat} : m.hasBytes a n = true ↔ ∃ d, m.bytes a n = some d := by
  induction n generalizing a with
  | zero => simp [hasBytes, bytes]
  | succ n ih =>
    rw [hasBytes, bytes, Bool.and_eq_true, ih]
    constructor
    · rintro ⟨h, d, hd⟩
      obtain ⟨b, hb⟩ := Option.isSome_iff_exists.mp h
      exact ⟨b :: d, by rw [hb, hd]⟩
    · rintro ⟨d, h⟩
      split at h
      · next b bs hb hbs => exact ⟨by simp [hb], bs, hbs⟩
      · cases h

/-- `mapBlocks` changes no byte outside its blocks. -/
theorem mapBlocks_outside {f : Word64 → Word64} {k j : Nat} {m m' : Memory} (h : m.mapBlocks f k j = some m') {x : Nat}
    (hx : x < 8 * j ∨ 8 * j + 8 * k ≤ x) : m'.byteAt x = m.byteAt x := by
  induction k generalizing j m with
  | zero =>
    rw [mapBlocks, Option.some.injEq] at h
    rw [h]
  | succ k ih =>
    rw [mapBlocks] at h
    split at h
    · cases h
    · rw [ih h (by omega), byteAt_store_outside _ _ _ _ _ (by omega)]

/-- `mapBlocks` puts `f` of each block in its place (42_block_transform.md R216). -/
theorem mapBlocks_load {f : Word64 → Word64} {k j i : Nat} {m m' : Memory} {w : Word64}
    (h : m.mapBlocks f k j = some m') (hj : j ≤ i) (hk : i < j + k) (hw : m.load (8 * i) 8 = some w) :
    m'.load (8 * i) 8 = some (f w) := by
  induction k generalizing j m with
  | zero => omega
  | succ k ih =>
    rw [mapBlocks] at h
    split at h
    · cases h
    · next w0 hw0 =>
      by_cases hij : i = j
      · subst hij
        rw [hw] at hw0
        cases hw0
        rw [load_eq_bytes, bytes_congr 8 (8 * i) (m' := m.store (8 * i) 8 (f w))
          (fun x _ => mapBlocks_outside h (by omega)), bytes_store, Option.map_some,
          fromLe_toLe 8 _ (by have := (f w).isLt; omega)]
      · refine ih h (by omega) (by omega) ?_
        rw [← hw, load_eq_bytes, load_eq_bytes, bytes_congr 8 (8 * i)
          (fun x _ => byteAt_store_outside _ _ _ _ _ (by omega))]

end Memory
end Sys2Proof.Machine
end

