-- ==== Sys2Proof/Laws/State.lean ====
section
/-! SUPPORT. One lemma per field per update of the state and of its control part, each true by rfl, so that no proof
unfolds a record update. -/

namespace Sys2Proof.Machine

section StateUpdates
variable (s : State)

@[simp] theorem State.setCtl_variant (c : Control) : (s.setCtl c).variant = s.variant := rfl
@[simp] theorem State.setCtl_ctl (c : Control) : (s.setCtl c).ctl = c := rfl
@[simp] theorem State.setCtl_regs (c : Control) : (s.setCtl c).regs = s.regs := rfl
@[simp] theorem State.setCtl_buf (c : Control) : (s.setCtl c).buf = s.buf := rfl
@[simp] theorem State.setCtl_host (c : Control) : (s.setCtl c).host = s.host := rfl
@[simp] theorem State.setCtl_schedule (c : Control) : (s.setCtl c).schedule = s.schedule := rfl
@[simp] theorem State.setCtl_draws (c : Control) : (s.setCtl c).draws = s.draws := rfl
@[simp] theorem State.setCtl_params (c : Control) : (s.setCtl c).params = s.params := rfl

@[simp] theorem State.setRegs_variant (r : Registers) : (s.setRegs r).variant = s.variant := rfl
@[simp] theorem State.setRegs_ctl (r : Registers) : (s.setRegs r).ctl = s.ctl := rfl
@[simp] theorem State.setRegs_regs (r : Registers) : (s.setRegs r).regs = r := rfl
@[simp] theorem State.setRegs_buf (r : Registers) : (s.setRegs r).buf = s.buf := rfl
@[simp] theorem State.setRegs_host (r : Registers) : (s.setRegs r).host = s.host := rfl
@[simp] theorem State.setRegs_schedule (r : Registers) : (s.setRegs r).schedule = s.schedule := rfl
@[simp] theorem State.setRegs_draws (r : Registers) : (s.setRegs r).draws = s.draws := rfl
@[simp] theorem State.setRegs_params (r : Registers) : (s.setRegs r).params = s.params := rfl

@[simp] theorem State.setBuf_variant (m : Memory) : (s.setBuf m).variant = s.variant := rfl
@[simp] theorem State.setBuf_ctl (m : Memory) : (s.setBuf m).ctl = s.ctl := rfl
@[simp] theorem State.setBuf_regs (m : Memory) : (s.setBuf m).regs = s.regs := rfl
@[simp] theorem State.setBuf_buf (m : Memory) : (s.setBuf m).buf = m := rfl
@[simp] theorem State.setBuf_host (m : Memory) : (s.setBuf m).host = s.host := rfl
@[simp] theorem State.setBuf_schedule (m : Memory) : (s.setBuf m).schedule = s.schedule := rfl
@[simp] theorem State.setBuf_draws (m : Memory) : (s.setBuf m).draws = s.draws := rfl
@[simp] theorem State.setBuf_params (m : Memory) : (s.setBuf m).params = s.params := rfl

@[simp] theorem State.setHost_variant (h : HostAgent) : (s.setHost h).variant = s.variant := rfl
@[simp] theorem State.setHost_ctl (h : HostAgent) : (s.setHost h).ctl = s.ctl := rfl
@[simp] theorem State.setHost_regs (h : HostAgent) : (s.setHost h).regs = s.regs := rfl
@[simp] theorem State.setHost_buf (h : HostAgent) : (s.setHost h).buf = s.buf := rfl
@[simp] theorem State.setHost_host (h : HostAgent) : (s.setHost h).host = h := rfl
@[simp] theorem State.setHost_schedule (h : HostAgent) : (s.setHost h).schedule = s.schedule := rfl
@[simp] theorem State.setHost_draws (h : HostAgent) : (s.setHost h).draws = s.draws := rfl
@[simp] theorem State.setHost_params (h : HostAgent) : (s.setHost h).params = s.params := rfl

@[simp] theorem State.setBtLen_variant (n : Nat) : (s.setBtLen n).variant = s.variant := rfl
@[simp] theorem State.setBtLen_ctl (n : Nat) : (s.setBtLen n).ctl = s.ctl := rfl
@[simp] theorem State.setBtLen_regs (n : Nat) : (s.setBtLen n).regs = { s.regs with btLen := BitVec.ofNat 32 n } := rfl
@[simp] theorem State.setBtLen_buf (n : Nat) : (s.setBtLen n).buf = s.buf := rfl
@[simp] theorem State.setBtLen_host (n : Nat) : (s.setBtLen n).host = s.host := rfl
@[simp] theorem State.setBtLen_schedule (n : Nat) : (s.setBtLen n).schedule = s.schedule := rfl
@[simp] theorem State.setBtLen_draws (n : Nat) : (s.setBtLen n).draws = s.draws := rfl
@[simp] theorem State.setBtLen_params (n : Nat) : (s.setBtLen n).params = s.params := rfl

@[simp] theorem State.setPrng_variant (st : PrngState) (out : Word64) : (s.setPrng st out).variant = s.variant := rfl
@[simp] theorem State.setPrng_ctl (st : PrngState) (out : Word64) : (s.setPrng st out).ctl = s.ctl := rfl
@[simp] theorem State.setPrng_regs (st : PrngState) (out : Word64) : (s.setPrng st out).regs = { s.regs with prng := st, prngOut := out } := rfl
@[simp] theorem State.setPrng_buf (st : PrngState) (out : Word64) : (s.setPrng st out).buf = s.buf := rfl
@[simp] theorem State.setPrng_host (st : PrngState) (out : Word64) : (s.setPrng st out).host = s.host := rfl
@[simp] theorem State.setPrng_schedule (st : PrngState) (out : Word64) : (s.setPrng st out).schedule = s.schedule := rfl
@[simp] theorem State.setPrng_draws (st : PrngState) (out : Word64) : (s.setPrng st out).draws = s.draws := rfl
@[simp] theorem State.setPrng_params (st : PrngState) (out : Word64) : (s.setPrng st out).params = s.params := rfl

@[simp] theorem State.setBcData_variant (v : Word64) : (s.setBcData v).variant = s.variant := rfl
@[simp] theorem State.setBcData_ctl (v : Word64) : (s.setBcData v).ctl = s.ctl := rfl
@[simp] theorem State.setBcData_regs (v : Word64) : (s.setBcData v).regs = { s.regs with bcData := v } := rfl
@[simp] theorem State.setBcData_buf (v : Word64) : (s.setBcData v).buf = s.buf := rfl
@[simp] theorem State.setBcData_host (v : Word64) : (s.setBcData v).host = s.host := rfl
@[simp] theorem State.setBcData_schedule (v : Word64) : (s.setBcData v).schedule = s.schedule := rfl
@[simp] theorem State.setBcData_draws (v : Word64) : (s.setBcData v).draws = s.draws := rfl
@[simp] theorem State.setBcData_params (v : Word64) : (s.setBcData v).params = s.params := rfl

@[simp] theorem State.nextDraw_variant : (s.nextDraw).variant = s.variant := rfl
@[simp] theorem State.nextDraw_ctl : (s.nextDraw).ctl = s.ctl := rfl
@[simp] theorem State.nextDraw_regs : (s.nextDraw).regs = s.regs := rfl
@[simp] theorem State.nextDraw_buf : (s.nextDraw).buf = s.buf := rfl
@[simp] theorem State.nextDraw_host : (s.nextDraw).host = s.host := rfl
@[simp] theorem State.nextDraw_schedule : (s.nextDraw).schedule = s.schedule := rfl
@[simp] theorem State.nextDraw_draws : (s.nextDraw).draws = s.draws + 1 := rfl
@[simp] theorem State.nextDraw_params : (s.nextDraw).params = s.params := rfl

@[simp] theorem State.popMover_variant : (s.popMover).variant = s.variant := rfl
@[simp] theorem State.popMover_ctl : (s.popMover).ctl = s.ctl := rfl
@[simp] theorem State.popMover_regs : (s.popMover).regs = s.regs := rfl
@[simp] theorem State.popMover_buf : (s.popMover).buf = s.buf := rfl
@[simp] theorem State.popMover_host : (s.popMover).host = s.host := rfl
@[simp] theorem State.popMover_schedule : (s.popMover).schedule = s.schedule.tail := rfl
@[simp] theorem State.popMover_draws : (s.popMover).draws = s.draws := rfl
@[simp] theorem State.popMover_params : (s.popMover).params = s.params := rfl

@[simp] theorem State.raiseError_variant (e : ErrorCode) : (s.raiseError e).variant = s.variant := rfl
@[simp] theorem State.raiseError_ctl (e : ErrorCode) : (s.raiseError e).ctl = s.ctl.recordError e := rfl
@[simp] theorem State.raiseError_regs (e : ErrorCode) : (s.raiseError e).regs = s.regs := rfl
@[simp] theorem State.raiseError_buf (e : ErrorCode) : (s.raiseError e).buf = s.buf := rfl
@[simp] theorem State.raiseError_host (e : ErrorCode) : (s.raiseError e).host = s.host := rfl
@[simp] theorem State.raiseError_schedule (e : ErrorCode) : (s.raiseError e).schedule = s.schedule := rfl
@[simp] theorem State.raiseError_draws (e : ErrorCode) : (s.raiseError e).draws = s.draws := rfl
@[simp] theorem State.raiseError_params (e : ErrorCode) : (s.raiseError e).params = s.params := rfl

@[simp] theorem State.finish_variant : (s.finish).variant = s.variant := rfl
@[simp] theorem State.finish_ctl : (s.finish).ctl = s.ctl.finish := rfl
@[simp] theorem State.finish_regs : (s.finish).regs = s.regs := rfl
@[simp] theorem State.finish_buf : (s.finish).buf = s.buf := rfl
@[simp] theorem State.finish_host : (s.finish).host = s.host := rfl
@[simp] theorem State.finish_schedule : (s.finish).schedule = s.schedule := rfl
@[simp] theorem State.finish_draws : (s.finish).draws = s.draws := rfl
@[simp] theorem State.finish_params : (s.finish).params = s.params := rfl

@[simp] theorem State.hostAdvance_variant : (s.hostAdvance).variant = s.variant := rfl
@[simp] theorem State.hostAdvance_ctl : (s.hostAdvance).ctl = s.ctl := rfl
@[simp] theorem State.hostAdvance_regs : (s.hostAdvance).regs = s.regs := rfl
@[simp] theorem State.hostAdvance_buf : (s.hostAdvance).buf = s.buf := rfl
@[simp] theorem State.hostAdvance_host : (s.hostAdvance).host = { s.host with pc := s.host.pc + 1 } := rfl
@[simp] theorem State.hostAdvance_schedule : (s.hostAdvance).schedule = s.schedule := rfl
@[simp] theorem State.hostAdvance_draws : (s.hostAdvance).draws = s.draws := rfl
@[simp] theorem State.hostAdvance_params : (s.hostAdvance).params = s.params := rfl

@[simp] theorem State.observe_variant (o n : Nat) (v : Word64) : (s.observe o n v).variant = s.variant := rfl
@[simp] theorem State.observe_ctl (o n : Nat) (v : Word64) : (s.observe o n v).ctl = s.ctl := rfl
@[simp] theorem State.observe_regs (o n : Nat) (v : Word64) : (s.observe o n v).regs = s.regs := rfl
@[simp] theorem State.observe_buf (o n : Nat) (v : Word64) : (s.observe o n v).buf = s.buf := rfl
@[simp] theorem State.observe_host (o n : Nat) (v : Word64) : (s.observe o n v).host = { s.host with seen := s.host.seen ++ [{ offset := o, size := n, value := v }] } := rfl
@[simp] theorem State.observe_schedule (o n : Nat) (v : Word64) : (s.observe o n v).schedule = s.schedule := rfl
@[simp] theorem State.observe_draws (o n : Nat) (v : Word64) : (s.observe o n v).draws = s.draws := rfl
@[simp] theorem State.observe_params (o n : Nat) (v : Word64) : (s.observe o n v).params = s.params := rfl

@[simp] theorem State.placeCommand_variant (v : Word64) : (s.placeCommand v).variant = s.variant := rfl
@[simp] theorem State.placeCommand_ctl (v : Word64) : (s.placeCommand v).ctl = s.ctl.latch v := rfl
@[simp] theorem State.placeCommand_regs (v : Word64) : (s.placeCommand v).regs = s.regs := rfl
@[simp] theorem State.placeCommand_buf (v : Word64) : (s.placeCommand v).buf = s.buf := rfl
@[simp] theorem State.placeCommand_host (v : Word64) : (s.placeCommand v).host = s.host := rfl
@[simp] theorem State.placeCommand_schedule (v : Word64) : (s.placeCommand v).schedule = .engine :: s.schedule := rfl
@[simp] theorem State.placeCommand_draws (v : Word64) : (s.placeCommand v).draws = s.draws := rfl
@[simp] theorem State.placeCommand_params (v : Word64) : (s.placeCommand v).params = s.params := rfl

@[simp] theorem State.coreReset_variant : (s.coreReset).variant = s.variant := rfl
@[simp] theorem State.coreReset_ctl : (s.coreReset).ctl = State.reset.ctl := rfl
@[simp] theorem State.coreReset_regs : (s.coreReset).regs = State.reset.regs := rfl
@[simp] theorem State.coreReset_buf : (s.coreReset).buf = [] := rfl
@[simp] theorem State.coreReset_host : (s.coreReset).host = s.host := rfl
@[simp] theorem State.coreReset_schedule : (s.coreReset).schedule = s.schedule := rfl
@[simp] theorem State.coreReset_draws : (s.coreReset).draws = s.draws := rfl
@[simp] theorem State.coreReset_params : (s.coreReset).params = s.params := rfl

end StateUpdates

section ControlUpdates
variable (c : Control)

@[simp] theorem Control.latch_ie (v : Word64) : (c.latch v).ie = c.ie := rfl
@[simp] theorem Control.latch_busy (v : Word64) : (c.latch v).busy = true := rfl
@[simp] theorem Control.latch_done (v : Word64) : (c.latch v).done = false := rfl
@[simp] theorem Control.latch_err (v : Word64) : (c.latch v).err = false := rfl
@[simp] theorem Control.latch_ovr (v : Word64) : (c.latch v).ovr = c.ovr := rfl
@[simp] theorem Control.latch_seeded (v : Word64) : (c.latch v).seeded = c.seeded := rfl
@[simp] theorem Control.latch_errcode (v : Word64) : (c.latch v).errcode = 0 := rfl
@[simp] theorem Control.latch_pending (v : Word64) : (c.latch v).pending = v := rfl

@[simp] theorem Control.recordError_ie (e : ErrorCode) : (c.recordError e).ie = c.ie := rfl
@[simp] theorem Control.recordError_busy (e : ErrorCode) : (c.recordError e).busy = c.busy := rfl
@[simp] theorem Control.recordError_done (e : ErrorCode) : (c.recordError e).done = c.done := rfl
@[simp] theorem Control.recordError_err (e : ErrorCode) : (c.recordError e).err = true := rfl
@[simp] theorem Control.recordError_ovr (e : ErrorCode) : (c.recordError e).ovr = c.ovr := rfl
@[simp] theorem Control.recordError_seeded (e : ErrorCode) : (c.recordError e).seeded = c.seeded := rfl
@[simp] theorem Control.recordError_errcode (e : ErrorCode) : (c.recordError e).errcode = e.code := rfl
@[simp] theorem Control.recordError_pending (e : ErrorCode) : (c.recordError e).pending = c.pending := rfl

@[simp] theorem Control.finish_ie : (c.finish).ie = c.ie := rfl
@[simp] theorem Control.finish_busy : (c.finish).busy = false := rfl
@[simp] theorem Control.finish_done : (c.finish).done = true := rfl
@[simp] theorem Control.finish_err : (c.finish).err = c.err := rfl
@[simp] theorem Control.finish_ovr : (c.finish).ovr = c.ovr := rfl
@[simp] theorem Control.finish_seeded : (c.finish).seeded = c.seeded := rfl
@[simp] theorem Control.finish_errcode : (c.finish).errcode = c.errcode := rfl
@[simp] theorem Control.finish_pending : (c.finish).pending = c.pending := rfl

@[simp] theorem Control.markSeeded_ie : (c.markSeeded).ie = c.ie := rfl
@[simp] theorem Control.markSeeded_busy : (c.markSeeded).busy = c.busy := rfl
@[simp] theorem Control.markSeeded_done : (c.markSeeded).done = c.done := rfl
@[simp] theorem Control.markSeeded_err : (c.markSeeded).err = c.err := rfl
@[simp] theorem Control.markSeeded_ovr : (c.markSeeded).ovr = c.ovr := rfl
@[simp] theorem Control.markSeeded_seeded : (c.markSeeded).seeded = true := rfl
@[simp] theorem Control.markSeeded_errcode : (c.markSeeded).errcode = c.errcode := rfl
@[simp] theorem Control.markSeeded_pending : (c.markSeeded).pending = c.pending := rfl

@[simp] theorem Control.writeCtrl_ie (v : Word64) : (c.writeCtrl v).ie = v.getLsbD 0 := rfl
@[simp] theorem Control.writeCtrl_busy (v : Word64) : (c.writeCtrl v).busy = c.busy := rfl
@[simp] theorem Control.writeCtrl_done (v : Word64) : (c.writeCtrl v).done = c.done := rfl
@[simp] theorem Control.writeCtrl_err (v : Word64) : (c.writeCtrl v).err = c.err := rfl
@[simp] theorem Control.writeCtrl_ovr (v : Word64) : (c.writeCtrl v).ovr = c.ovr := rfl
@[simp] theorem Control.writeCtrl_seeded (v : Word64) : (c.writeCtrl v).seeded = c.seeded := rfl
@[simp] theorem Control.writeCtrl_errcode (v : Word64) : (c.writeCtrl v).errcode = c.errcode := rfl
@[simp] theorem Control.writeCtrl_pending (v : Word64) : (c.writeCtrl v).pending = c.pending := rfl

@[simp] theorem Control.writeStatus_ie (v : Word64) : (c.writeStatus v).ie = c.ie := rfl
@[simp] theorem Control.writeStatus_busy (v : Word64) : (c.writeStatus v).busy = c.busy := rfl
@[simp] theorem Control.writeStatus_done (v : Word64) : (c.writeStatus v).done = if v.getLsbD 1 then false else c.done := rfl
@[simp] theorem Control.writeStatus_err (v : Word64) : (c.writeStatus v).err = if v.getLsbD 2 then false else c.err := rfl
@[simp] theorem Control.writeStatus_ovr (v : Word64) : (c.writeStatus v).ovr = if v.getLsbD 3 then false else c.ovr := rfl
@[simp] theorem Control.writeStatus_seeded (v : Word64) : (c.writeStatus v).seeded = c.seeded := rfl
@[simp] theorem Control.writeStatus_errcode (v : Word64) : (c.writeStatus v).errcode = if v.getLsbD 2 then 0 else c.errcode := rfl
@[simp] theorem Control.writeStatus_pending (v : Word64) : (c.writeStatus v).pending = c.pending := rfl

theorem Control.writeCmd_idle (v : Word64) (h : c.busy = false) : c.writeCmd v = c.latch v := by
  simp [Control.writeCmd, h]

theorem Control.writeCmd_busy (v : Word64) (h : c.busy = true) : c.writeCmd v = { c with ovr := true } := by
  simp [Control.writeCmd, h]

end ControlUpdates

end Sys2Proof.Machine
end

