-- ==== Sys2Proof/Laws/Exec.lean ====
section
/-! SUPPORT. What a command can do, said once: how `complete` ends, the success of each command, and the inversion of
`exec`. Later proofs cite these and do not unfold a meaning. -/

namespace Sys2Proof.Machine

/-! ### Completion -/

/-- The errors a command can meet (60_exceptions.md R264 to R267); ILLEGAL_COMMAND is an illegal word's and INVARIANT is
never raised (R263, R268). -/
abbrev commandErrors : List ErrorCode := [.notSeeded, .invalidPadding, .lengthNotMultiple, .bufferOverflow]

@[simp] theorem complete_ok (s s1 : State) : complete s (.ok s1) = .next s1.finish := rfl
@[simp] theorem complete_error (s : State) (e : ErrorCode) : complete s (.error e) = .next (s.raiseError e).finish := rfl
@[simp] theorem complete_stuck (s : State) (f : Fault) : complete s (.stuck f) = .fault f := rfl

/-- A completion that answers a next state is a success or an error (60_exceptions.md R272). -/
theorem complete_next {s t : State} {r : Executed} (h : complete s r = .next t) :
    (∃ s1, r = .ok s1 ∧ t = s1.finish) ∨ (∃ e, r = .error e ∧ t = (s.raiseError e).finish) := by
  cases r with
  | ok s1 => exact .inl ⟨s1, rfl, by simpa using h.symm⟩
  | error e => exact .inr ⟨e, rfl, by simpa using h.symm⟩
  | stuck f => simp at h

/-- No command is ever refused: `complete` has no refusal. -/
theorem complete_not_refused (s : State) (r : Executed) (q : Refusal) : complete s r ≠ .refused q := by
  cases r <;> simp [complete]

/-! ### Arithmetic of the length register -/

theorem padLength_pos (n : Nat) : 1 ≤ padLength n := by unfold padLength; omega
theorem padLength_le (n : Nat) : padLength n ≤ 8 := by unfold padLength; omega
theorem add_padLength_mod (n : Nat) : (n + padLength n) % 8 = 0 := by unfold padLength; omega

theorem Params.bufSize_mod (P : Params) : P.bufSize % 8 = 0 := by unfold Params.bufSize; omega
theorem Params.bufSize_le (P : Params) : P.bufSize ≤ 65536 := by
  have := P.bufBlocksPred.isLt; unfold Params.bufSize; omega
theorem Params.bufSize_ge (P : Params) : 8 ≤ P.bufSize := by unfold Params.bufSize; omega

/-- The pad fits exactly when there is a free byte (42_block_transform.md R217, 90_conflicts.md C9). -/
theorem pad_fits_iff (P : Params) (n : Nat) : n + padLength n ≤ P.bufSize ↔ n < P.bufSize := by
  have := Params.bufSize_mod P
  unfold padLength
  omega

@[simp] theorem State.len_setBtLen (s : State) (n : Nat) : (s.setBtLen n).len = n % 2 ^ 32 := rfl
@[simp] theorem State.len_setBuf (s : State) (m : Memory) : (s.setBuf m).len = s.len := rfl
@[simp] theorem State.len_finish (s : State) : s.finish.len = s.len := rfl
@[simp] theorem State.subkey_setBuf (s : State) (m : Memory) : (s.setBuf m).subkey = s.subkey := rfl
@[simp] theorem State.subkey_setBtLen (s : State) (n : Nat) : (s.setBtLen n).subkey = s.subkey := rfl
@[simp] theorem State.subkey_finish (s : State) : s.finish.subkey = s.subkey := rfl

/-! ### The success of each command -/

/-- The state a command's pseudocode leaves when it succeeds, before BUSY and DONE are written, and when it does. -/
def Succeeds (i : Instr) (s s1 : State) : Prop :=
  match i with
  | .nop => s1 = s
  | .prngSeed => s1 = (s.setPrng (seedStream s.params s.regs.prngSeed) 0).setCtl s.ctl.markSeeded
  | .prngNext => s.ctl.seeded = true ∧
      s1 = s.setPrng (nextWord s.params s.regs.prng s.regs.prngTweak).1 (nextWord s.params s.regs.prng s.regs.prngTweak).2
  | .bcEnc => s1 = s.setBcData (encryptBlock s.params s.regs.bcData s.regs.bcKey s.regs.bcNonce)
  | .bcDec => s1 = s.setBcData (decryptBlock s.params s.regs.bcData s.regs.bcKey s.regs.bcNonce)
  | .btPad => s.len < s.params.bufSize ∧
      s1 = (s.setBuf (s.buf.fill s.len (padLength s.len) (BitVec.ofNat 8 (padLength s.len)))).setBtLen
        (s.len + padLength s.len)
  | .btUnpad => s.len ≤ s.params.bufSize ∧ ∃ b, s.buf.byteAt (s.len - 1) = some b ∧ 1 ≤ b.toNat ∧ b.toNat ≤ 8 ∧
      b.toNat ≤ s.len ∧ s.buf.allEqual (s.len - b.toNat) b b.toNat = true ∧ s1 = s.setBtLen (s.len - b.toNat)
  | .btEnc => s.len ≤ s.params.bufSize ∧ s.len % 8 = 0 ∧ ∃ m,
      s.buf.mapBlocks (cascadeF s.params s.subkey s.regs.btNonce) (s.len / 8) 0 = some m ∧ s1 = s.setBuf m
  | .btDec => s.len ≤ s.params.bufSize ∧ s.len % 8 = 0 ∧ ∃ m,
      s.buf.mapBlocks (cascadeB s.params s.subkey s.regs.btNonce) (s.len / 8) 0 = some m ∧ s1 = s.setBuf m
  | .keyWipe => s1 = s.setRegs
      { s.regs with bcKey := 0, bcNonce := 0, btNonce := 0, btSk0 := 0, btSk1 := 0, btSk2 := 0, btSk3 := 0 }
  | .bufWipe => s1 = (s.setBuf (Memory.zeros 0 s.params.bufSize)).setRegs { s.regs with btLen := 0, bcData := 0 }

theorem runTransform_ok {s s1 : State} {f : Word64 → Word64} (h : runTransform s f = .ok s1) :
    s.len ≤ s.params.bufSize ∧ s.len % 8 = 0 ∧ ∃ m, s.buf.mapBlocks f (s.len / 8) 0 = some m ∧ s1 = s.setBuf m := by
  unfold runTransform at h
  split at h
  · cases h
  · split at h
    · cases h
    · split at h
      · cases h
      · split at h
        · cases h
        · next m hm =>
          cases h
          exact ⟨by omega, by omega, m, hm, rfl⟩

theorem runTransform_error {s : State} {f : Word64 → Word64} {e : ErrorCode} (h : runTransform s f = .error e) :
    e = .bufferOverflow ∨ e = .lengthNotMultiple := by
  unfold runTransform at h
  split at h
  · cases h; exact .inl rfl
  · split at h
    · cases h; exact .inr rfl
    · split at h
      · cases h
      · split at h <;> cases h

theorem execBtUnpad_next {s t : State} (h : execBtUnpad s = .next t) :
    (∃ s1, Succeeds .btUnpad s s1 ∧ t = s1.finish) ∨ (∃ e, e ∈ commandErrors ∧ t = (s.raiseError e).finish) := by
  unfold execBtUnpad at h
  split at h
  · exact .inr ⟨.bufferOverflow, by decide, by simpa using h.symm⟩
  · next hn =>
    split at h
    · exact .inr ⟨.invalidPadding, by decide, by simpa using h.symm⟩
    · split at h
      · simp at h
      · next b hb =>
        simp only at h
        split at h
        · exact .inr ⟨.invalidPadding, by decide, by simpa using h.symm⟩
        · next hp =>
          split at h
          · simp at h
          · split at h
            · exact .inr ⟨.invalidPadding, by decide, by simpa using h.symm⟩
            · next hall =>
              refine .inl ⟨_, ⟨by omega, b, hb, by omega, by omega, by omega, by simpa using hall, rfl⟩, ?_⟩
              simpa using h.symm

/-- The inversion of `exec`: a command that answers a next state succeeded, or recorded an error and changed nothing else
(60_exceptions.md R262, R272). -/
theorem exec_next {i : Instr} {s t : State} (h : exec i s = .next t) :
    (∃ s1, Succeeds i s s1 ∧ t = s1.finish) ∨ (∃ e, e ∈ commandErrors ∧ t = (s.raiseError e).finish) := by
  cases i with
  | nop => exact .inl ⟨s, rfl, by simpa [exec, execNop] using h.symm⟩
  | prngSeed => exact .inl ⟨_, rfl, by simpa [exec, execPrngSeed] using h.symm⟩
  | prngNext =>
    simp only [exec, execPrngNext] at h
    split at h
    · exact .inr ⟨.notSeeded, by decide, by simpa using h.symm⟩
    · next hs => exact .inl ⟨_, ⟨by simpa using hs, rfl⟩, by simpa using h.symm⟩
  | bcEnc => exact .inl ⟨_, rfl, by simpa [exec, execBcEnc] using h.symm⟩
  | bcDec => exact .inl ⟨_, rfl, by simpa [exec, execBcDec] using h.symm⟩
  | btPad =>
    simp only [exec, execBtPad] at h
    split at h
    · exact .inr ⟨.bufferOverflow, by decide, by simpa using h.symm⟩
    · split at h
      · exact .inr ⟨.bufferOverflow, by decide, by simpa using h.symm⟩
      · next hfit =>
        exact .inl ⟨_, ⟨(pad_fits_iff _ _).mp (by omega), rfl⟩, by simpa using h.symm⟩
  | btUnpad => exact execBtUnpad_next h
  | btEnc =>
    rcases complete_next h with ⟨s1, hr, ht⟩ | ⟨e, hr, ht⟩
    · exact .inl ⟨s1, runTransform_ok hr, ht⟩
    · exact .inr ⟨e, by rcases runTransform_error hr with rfl | rfl <;> decide, ht⟩
  | btDec =>
    rcases complete_next h with ⟨s1, hr, ht⟩ | ⟨e, hr, ht⟩
    · exact .inl ⟨s1, runTransform_ok hr, ht⟩
    · exact .inr ⟨e, by rcases runTransform_error hr with rfl | rfl <;> decide, ht⟩
  | keyWipe => exact .inl ⟨_, rfl, by simpa [exec, execKeyWipe] using h.symm⟩
  | bufWipe => exact .inl ⟨_, rfl, by simpa [exec, execBufWipe] using h.symm⟩

/-- The parts no command touches, whatever it does. -/
theorem Succeeds.frame {i : Instr} {s s1 : State} (h : Succeeds i s s1) :
    s1.variant = s.variant ∧ s1.host = s.host ∧ s1.schedule = s.schedule ∧ s1.draws = s.draws ∧
      s1.ctl = (if i = .prngSeed then s.ctl.markSeeded else s.ctl) := by
  cases i
  case prngNext => obtain ⟨-, rfl⟩ := h; exact ⟨rfl, rfl, rfl, rfl, rfl⟩
  case btPad => obtain ⟨-, rfl⟩ := h; exact ⟨rfl, rfl, rfl, rfl, rfl⟩
  case btUnpad => obtain ⟨-, b, -, -, -, -, -, rfl⟩ := h; exact ⟨rfl, rfl, rfl, rfl, rfl⟩
  case btEnc => obtain ⟨-, -, m, -, rfl⟩ := h; exact ⟨rfl, rfl, rfl, rfl, rfl⟩
  case btDec => obtain ⟨-, -, m, -, rfl⟩ := h; exact ⟨rfl, rfl, rfl, rfl, rfl⟩
  all_goals
    have h' := h
    simp only [Succeeds] at h'
    subst h'
    exact ⟨rfl, rfl, rfl, rfl, rfl⟩

end Sys2Proof.Machine
end

