-- ==== Sys2Proof/Laws/HostBus.lean ====
section
/-! SUPPORT. What a host read of the buffer returns, byte by byte (20_memory.md R84, R96; 70_reset_and_hazards.md R311): the
selection of the drawn bytes, the mix of draw and value, and the bytes of a load. -/

namespace Sys2Proof.Machine

/-! ### Selecting bytes -/

theorem anyByte_iff (sel : Nat → Bool) (n a : Nat) : anyByte sel a n = true ↔ ∃ k, k < n ∧ sel (a + k) = true := by
  induction n generalizing a with
  | zero => simp [anyByte]
  | succ n ih =>
    rw [anyByte, Bool.or_eq_true, ih]
    constructor
    · rintro (h | ⟨k, hk, h⟩)
      · exact ⟨0, by omega, h⟩
      · exact ⟨k + 1, by omega, by rwa [show a + (k + 1) = a + 1 + k by omega]⟩
    · rintro ⟨k, hk, h⟩
      cases k with
      | zero => exact .inl h
      | succ k => exact .inr ⟨k, by omega, by rwa [show a + (k + 1) = a + 1 + k by omega] at h⟩

theorem anyByte_eq_false_iff (sel : Nat → Bool) (n a : Nat) :
    anyByte sel a n = false ↔ ∀ k, k < n → sel (a + k) = false := by
  rw [← Bool.not_eq_true, anyByte_iff]
  simp

/-- Bit `i` of the mask is the selection of its byte. -/
theorem byteMask_getLsbD (sel : Nat → Bool) (n a i : Nat) (hi : i < 64) :
    (byteMask sel a n).getLsbD i = (decide (i < 8 * n) && sel (a + i / 8)) := by
  induction n generalizing a i with
  | zero => simp [byteMask]
  | succ n ih =>
    rw [byteMask, BitVec.getLsbD_or, BitVec.getLsbD_shiftLeft]
    by_cases h : i < 8
    · have hff : (0xFF : Word64).getLsbD i = true := by
        have : i = 0 ∨ i = 1 ∨ i = 2 ∨ i = 3 ∨ i = 4 ∨ i = 5 ∨ i = 6 ∨ i = 7 := by omega
        rcases this with rfl | rfl | rfl | rfl | rfl | rfl | rfl | rfl <;> rfl
      rw [show i / 8 = 0 by omega, Nat.add_zero, decide_eq_true (show i < 8 * (n + 1) by omega), decide_eq_true h]
      cases sel a
      · simp
      · rw [if_pos rfl, hff]; simp
    · have hff : (0xFF : Word64).getLsbD i = false := by
        rw [show (0xFF : Word64) = (0xFF : Byte).setWidth 64 from rfl, BitVec.getLsbD_setWidth,
          BitVec.getLsbD_of_ge _ _ (by omega), Bool.and_false]
      have hlow : (if sel a = true then (0xFF : Word64) else 0).getLsbD i = false := by
        cases sel a
        · exact BitVec.getLsbD_zero
        · exact hff
      rw [hlow, ih _ _ (by omega), show a + 1 + (i - 8) / 8 = a + i / 8 by omega, decide_eq_false h, decide_eq_true hi]
      simp only [Bool.not_false, Bool.true_and, Bool.or_false]
      congr 1
      exact decide_eq_decide.mpr (by omega)

/-- Byte `k` of a word mixed under a mask comes from the draw where its byte is selected, and from the value elsewhere. -/
theorem mixed_byte (v d : Word64) (sel : Nat → Bool) (n a k : Nat) (hk : k < n) (hn : n ≤ 8) :
    ((v &&& ~~~byteMask sel a n) ||| (d &&& byteMask sel a n)).extractLsb' (8 * k) 8 =
      (if sel (a + k) then d else v).extractLsb' (8 * k) 8 := by
  apply BitVec.eq_of_getLsbD_eq
  intro i hi
  have hb : 8 * k + i < 64 := by omega
  simp only [BitVec.getLsbD_extractLsb', BitVec.getLsbD_or, BitVec.getLsbD_and, BitVec.getLsbD_not,
    byteMask_getLsbD sel n a (8 * k + i) hb, decide_eq_true hb, show (8 * k + i) / 8 = k by omega,
    decide_eq_true (show 8 * k + i < 8 * n by omega), Bool.true_and]
  cases sel (a + k) <;> simp

/-- A mixed word of `n` bytes has no bit above them. -/
theorem mixed_lt (v d : Word64) (sel : Nat → Bool) (n a : Nat) (hv : v.toNat < 2 ^ (8 * n)) :
    ((v &&& ~~~byteMask sel a n) ||| (d &&& byteMask sel a n)).toNat < 2 ^ (8 * n) := by
  apply Nat.lt_pow_two_of_testBit
  intro i hi
  have hvi : v.getLsbD i = false := by
    rw [BitVec.getLsbD, Nat.testBit_lt_two_pow]
    exact lt_of_lt_of_le hv (Nat.pow_le_pow_right (by omega) hi)
  change BitVec.getLsbD _ i = false
  by_cases h : i < 64
  · rw [BitVec.getLsbD_or, BitVec.getLsbD_and, BitVec.getLsbD_and, hvi, byteMask_getLsbD _ _ _ _ h,
      decide_eq_false (by omega)]
    simp
  · exact BitVec.getLsbD_of_ge _ _ (by omega)

/-! ### Bytes of a load -/

theorem fromLe_byte (t : List Byte) (h : t.length ≤ 8) (k : Nat) (hk : k < t.length) :
    (fromLe t).extractLsb' (8 * k) 8 = t[k] := by
  induction t generalizing k with
  | nil => simp at hk
  | cons b t ih =>
    have hl : t.length + 1 ≤ 8 := by simpa using h
    have hkl : k < t.length + 1 := by simpa using hk
    cases k with
    | zero =>
      have hz : ∀ w : Word64, w.extractLsb' 0 8 = w.setWidth 8 := fun w => by
        apply BitVec.eq_of_getLsbD_eq
        intro i hi
        simp [hi]
      rw [fromLe, Nat.mul_zero, hz]
      exact byte_low _ _
    | succ k =>
      rw [List.getElem_cons_succ, ← ih (by omega) k (by omega), fromLe]
      apply BitVec.eq_of_getLsbD_eq
      intro i hi
      simp only [BitVec.getLsbD_extractLsb', BitVec.getLsbD_or, BitVec.getLsbD_shiftLeft, BitVec.getLsbD_setWidth,
        BitVec.getLsbD_of_ge b (8 * (k + 1) + i) (by omega), decide_eq_true (show 8 * (k + 1) + i < 64 by omega),
        decide_eq_false (show ¬8 * (k + 1) + i < 8 by omega), show 8 * (k + 1) + i - 8 = 8 * k + i by omega]
      simp

theorem Memory.load_eq_none {m : Memory} {a n k : Nat} (hk : k < n) (h : m.byteAt (a + k) = none) :
    m.load a n = none := by
  rw [load_eq_bytes]
  cases hb : m.bytes a n with
  | none => rfl
  | some t =>
    obtain ⟨hl, ht⟩ := (bytes_eq_some_iff n m a t).mp hb
    rw [ht k (by omega)] at h
    cases h

theorem Memory.load_eq_some {m : Memory} {a n : Nat} (hn : n ≤ 8) (h : ∀ k, k < n → (m.byteAt (a + k)).isSome = true) :
    ∃ v, m.load a n = some v ∧ v.toNat < 2 ^ (8 * n) ∧
      ∀ k, k < n → m.byteAt (a + k) = some (v.extractLsb' (8 * k) 8) := by
  obtain ⟨t, ht⟩ := hasBytes_iff_bytes.mp ((hasBytes_iff n m a).mpr h)
  obtain ⟨hl, hk⟩ := (bytes_eq_some_iff n m a t).mp ht
  refine ⟨fromLe t, by rw [load_eq_bytes, ht]; rfl, ?_, fun k hkn => ?_⟩
  · rw [← hl]; exact fromLe_lt t (by omega)
  · rw [hk k (by omega), fromLe_byte t (by omega) k (by omega)]

end Sys2Proof.Machine
end

