-- ==== Sys2Proof/Laws/Step.lean ====
section
/-! SUPPORT. The inversion of the host's accesses and of a step: every next state is one of the cases named here. -/

namespace Sys2Proof.Machine

theorem chain_next {α β : Type} {o : Host.Outcome α Fault Refusal} {f : α → Host.Outcome β Fault Refusal} {b : β}
    (h : chain o f = .next b) : ∃ a, o = .next a ∧ f a = .next b := by
  cases o with
  | next a => exact ⟨a, rfl, h⟩
  | fault r => simp [chain] at h
  | refused r => simp [chain] at h

/-- An admitted buffer access lies inside the buffer (20_memory.md R84). -/
theorem target_buffer {P : Params} {offset size a : Nat} (h : target P offset size = some (.buffer a)) :
    a + size ≤ P.bufSize ∧ 1 ≤ size ∧ size ≤ 8 := by
  unfold target at h
  split at h
  · split at h <;> simp at h
  · split at h
    · split at h
      · next hc =>
        obtain ⟨hs, -, hb⟩ := hc
        simp only [Option.some.injEq, Target.buffer.injEq] at h
        exact ⟨h ▸ hb, by omega, by omega⟩
      · simp at h
    · simp at h

theorem RegName.offset_of_ofOffset {o : Nat} {r : RegName} (h : RegName.ofOffset o = some r) : o = r.offset := by
  unfold RegName.ofOffset at h
  split at h <;> simp_all <;> (subst h; rfl)

@[simp] theorem RegName.ofOffset_offset (r : RegName) : RegName.ofOffset r.offset = some r := by cases r <;> rfl

/-- An admitted access of a named register moves the whole register at its offset (20_memory.md R83). -/
theorem target_register {P : Params} {offset size : Nat} {r : RegName}
    (h : target P offset size = some (.register (some r))) : offset = r.offset ∧ size = 8 := by
  unfold target at h
  split at h
  · split at h
    · next hc =>
      simp only [Option.some.injEq, Target.register.injEq] at h
      exact ⟨RegName.offset_of_ofOffset h, hc.1⟩
    · simp at h
  · split at h
    · split at h <;> simp at h
    · simp at h

@[simp] theorem target_offset (P : Params) (r : RegName) : target P r.offset 8 = some (.register (some r)) := by
  cases r <;> rfl

/-- The buffer window (20_memory.md R84). -/
theorem target_buf {P : Params} {a n : Nat} (hn : n = 1 ∨ n = 2 ∨ n = 4 ∨ n = 8) (ha : a % n = 0)
    (hb : a + n ≤ P.bufSize) : target P (0x10000 + a) n = some (.buffer a) := by
  have h1 : ¬(0x10000 + a < 0x100) := by omega
  have h2 : 0x10000 ≤ 0x10000 + a := by omega
  simp only [target, if_neg h1, if_pos h2, Nat.add_sub_cancel_left]
  rw [if_pos ⟨hn, ha, hb⟩]

/-- A read leaves everything but the draws taken (20_memory.md R90). -/
theorem hostRead_next {s t : State} {offset size : Nat} {v : Word64} (h : hostRead s offset size = .next (t, v)) :
    t = s ∨ t = s.nextDraw := by
  unfold hostRead at h
  split at h
  · cases h
  · next r _ =>
    cases r with
    | none => simp [State.hostReadReg] at h; exact .inl h.1.symm
    | some r =>
      simp only [State.hostReadReg] at h
      split at h
      · simp at h; exact .inr h.1.symm
      · simp at h; exact .inl h.1.symm
  · simp only [State.hostReadBuf] at h
    split at h
    · cases h
    · split at h
      · simp at h; exact .inr h.1.symm
      · simp at h; exact .inl h.1.symm

/-- What a host write that is not refused does (20_memory.md R90; 70_reset_and_hazards.md R310). -/
theorem hostWrite_next {s t : State} {offset size : Nat} {v : Word64} (h : hostWrite s offset size v = .next t) :
    t = s ∨ (∃ r, (s.ctl.busy && r.isOperand) = false ∧ offset = r.offset ∧ size = 8 ∧ t = s.writeReg r v) ∨
      (∃ a, s.ctl.busy = false ∧ a + size ≤ s.params.bufSize ∧ t = s.setBuf (s.buf.store a size v)) := by
  unfold hostWrite at h
  split at h
  · cases h
  · next r hr =>
    cases r with
    | none => simp [State.hostWriteReg] at h; exact .inl h.symm
    | some r =>
      have hoff := target_register hr
      simp only [State.hostWriteReg] at h
      split at h
      · cases h
      · next hb => simp at h; exact .inr (.inl ⟨r, by simpa using hb, hoff.1, hoff.2, h.symm⟩)
  · next a ha =>
    simp only [State.hostWriteBuf] at h
    split at h
    · cases h
    · next hb =>
      simp at h
      exact .inr (.inr ⟨a, by simpa using hb, (target_buffer ha).1, h.symm⟩)

/-- Two states whose cores agree: everything but the host agent, the schedule and the draws. -/
def SameCore (s t : State) : Prop :=
  t.variant = s.variant ∧ t.ctl = s.ctl ∧ t.regs = s.regs ∧ t.buf = s.buf

theorem SameCore.refl (s : State) : SameCore s s := ⟨rfl, rfl, rfl, rfl⟩

theorem SameCore.trans {s t u : State} (h : SameCore s t) (k : SameCore t u) : SameCore s u :=
  ⟨k.1.trans h.1, k.2.1.trans h.2.1, k.2.2.1.trans h.2.2.1, k.2.2.2.trans h.2.2.2⟩

/-- The inversion of the host's step: nothing happens to the core, or one register is written, or the buffer is. -/
theorem hostStep_next {s t : State} (h : hostStep s = .next t) :
    SameCore s t ∨
      (∃ r v, (s.ctl.busy && RegName.isOperand r) = false ∧
        s.host.program[s.host.pc]? = some (.access (.write r.offset 8 v)) ∧ SameCore (s.writeReg r v) t) ∨
      (∃ a n v, s.ctl.busy = false ∧ a + n ≤ s.params.bufSize ∧ SameCore (s.setBuf (s.buf.store a n v)) t) := by
  unfold hostStep at h
  split at h
  · simp at h; exact .inl (h ▸ SameCore.refl s)
  · obtain ⟨⟨u, v⟩, hu, ht⟩ := chain_next h
    simp only [Host.Outcome.next.injEq] at ht
    refine .inl ?_
    subst ht
    rcases hostRead_next hu with rfl | rfl <;> (split <;> exact ⟨rfl, rfl, rfl, rfl⟩)
  · next a hop =>
    cases a with
    | read offset size =>
      obtain ⟨⟨u, v⟩, hu, ht⟩ := chain_next h
      simp only [Host.Outcome.next.injEq] at ht
      refine .inl ?_
      subst ht
      rcases hostRead_next hu with rfl | rfl <;> exact ⟨rfl, rfl, rfl, rfl⟩
    | write offset size v =>
      obtain ⟨u, hu, ht⟩ := chain_next h
      simp only [Host.Outcome.next.injEq] at ht
      subst ht
      rcases hostWrite_next hu with rfl | ⟨r, hr, rfl, rfl, rfl⟩ | ⟨a, hb, ha, rfl⟩
      · exact .inl ⟨rfl, rfl, rfl, rfl⟩
      · exact .inr (.inl ⟨r, v, hr, hop, ⟨rfl, rfl, rfl, rfl⟩⟩)
      · exact .inr (.inr ⟨a, size, v, hb, ha, ⟨rfl, rfl, rfl, rfl⟩⟩)

/-- The engine runs the pending command (60_exceptions.md R272). -/
theorem engineStep_command {s : State} {i : Instr} (hb : s.ctl.busy = true) (hd : decode s.ctl.pending = .ok i) :
    engineStep s = exec i s := by
  simp [engineStep, hb, hd]

/-- The engine completes an illegal word with ILLEGAL_COMMAND (60_exceptions.md R263). -/
theorem engineStep_illegal {s : State} {r : IllegalWord} (hb : s.ctl.busy = true)
    (hd : decode s.ctl.pending = .error r) : engineStep s = .next (s.raiseError .illegalCommand).finish := by
  simp [engineStep, hb, hd]

/-- The engine has no step while BUSY = 0 (10_state.md R32). -/
theorem engineStep_idle {s : State} (hb : s.ctl.busy = false) : engineStep s = .next s := by
  simp [engineStep, hb]

/-- The inversion of the engine's step (60_exceptions.md R272). -/
theorem engineStep_next {s t : State} (h : engineStep s = .next t) :
    (s.ctl.busy = false ∧ t = s) ∨
      (s.ctl.busy = true ∧ ∃ i, decode s.ctl.pending = .ok i ∧ exec i s = .next t) ∨
      (s.ctl.busy = true ∧ (∃ r, decode s.ctl.pending = .error r) ∧ t = (s.raiseError .illegalCommand).finish) := by
  unfold engineStep at h
  split at h
  · next hb =>
    split at h
    · next i hi => exact .inr (.inl ⟨hb, i, hi, h⟩)
    · next r hr => exact .inr (.inr ⟨hb, ⟨r, hr⟩, by simpa using h.symm⟩)
  · next hb => exact .inl ⟨by simpa using hb, by simpa using h.symm⟩

/-- The inversion of a step by the mover whose turn it is. -/
theorem step_next {s t : State} (h : step s = .next t) :
    (s.nextMover = .engine ∧ engineStep s.popMover = .next t) ∨
      (s.nextMover = .host ∧ hostStep s.popMover = .next t) ∨
      (s.nextMover = .reset ∧ t = s.popMover.coreReset) := by
  unfold step at h
  cases hm : s.nextMover with
  | engine => rw [hm] at h; exact .inl ⟨rfl, h⟩
  | host => rw [hm] at h; exact .inr (.inl ⟨rfl, h⟩)
  | reset => rw [hm] at h; exact .inr (.inr ⟨rfl, by simpa [moverStep] using h.symm⟩)

/-- A placed command is the engine's next. -/
@[simp] theorem State.nextMover_placeCommand (s : State) (v : Word64) : (s.placeCommand v).nextMover = .engine := rfl

/-- The step of a placed command completes that command and leaves the schedule as it was (assumption log 5). -/
theorem step_withFetchWord (s : State) (nbits w : Nat) :
    step (s.withFetchWord nbits w) = engineStep (s.setCtl (s.ctl.latch (tableWord nbits w))) := rfl

end Sys2Proof.Machine
end

