-- ==== Sys2Proof/Tests/Slice0.lean ====
section
/-! SUPPORT. Tests: the WellFormed smoke, words written out from the encoding of 30_encoding.md, vectors of
95_test_vectors.md (the id stands in each docstring; the expected values are the spec's, under REF where the vector says
so), and for each obligation with hypotheses a state and operands that meet them. -/

namespace Sys2Proof.Tests

open Sys2Proof Sys2Proof.Machine

/-! ### Helpers -/

/-- The reset state of a machine with the REF parameters. -/
def refReset : State := { State.reset with variant := .ref }

/-- A state with the given registers written, in order. -/
def withRegs (s : State) (rs : List (RegName × Word64)) : State := rs.foldl (fun t p => t.writeReg p.1 p.2) s

/-- A state with the given bytes in the buffer from offset 0 up and BT_LEN their number. -/
def withBytes (s : State) (bytes : List Byte) : State :=
  (bytes.zipIdx.foldl (fun t p => t.setBuf (t.buf.setByte p.2 p.1)) s).setBtLen bytes.length

/-- The state in which a command word has been accepted. -/
def pendingWord (s : State) (v : Word64) : State := s.setCtl (s.ctl.latch v)

/-- The register's value after an outcome. -/
def regOf (o : Host.Outcome State Fault Refusal) (r : RegName) : Option Word64 :=
  match o with
  | .next t => some (t.readReg r)
  | _ => none

/-- The buffer's first `n` bytes after an outcome. -/
def bytesOf (o : Host.Outcome State Fault Refusal) (n : Nat) : Option (List Byte) :=
  match o with
  | .next t => t.buf.bytes 0 n
  | _ => none

/-- The value of a host read. -/
def readOf (o : Host.Outcome (State × Word64) Fault Refusal) : Option Word64 :=
  match o with
  | .next r => some r.2
  | _ => none

/-- Whether an outcome is a next state. -/
def isNext {α : Type} (o : Host.Outcome α Fault Refusal) : Bool :=
  match o with
  | .next _ => true
  | _ => false

/-- BC-E6's key, nonce and data. -/
def bcState : State :=
  withRegs refReset [(.bcKey, 0x0123456789ABCDEF), (.bcNonce, 0xFEDCBA9876543210), (.bcData, 0x0123456789ABCDEF)]

/-- BT-C1's subkeys and nonce. -/
def btState : State :=
  withRegs refReset [(.btSk0, 0x0123456789ABCDEF), (.btSk1, 0xFEDCBA9876543210), (.btSk2, 0x0F1E2D3C4B5A6978),
    (.btSk3, 0x8796A5B4C3D2E1F0), (.btNonce, 0x1111111111111111)]

/-- PR-3's state: seed 42 seeded. -/
def seededState : State :=
  { withRegs refReset [(.prngSeed, 0x2A)] with
    ctl := { refReset.ctl with seeded := true }
    regs := { refReset.regs with
      prngSeed := 0x2A
      prng := { x := 0x25F8EF946B6D6664, y := 0xE9B4E4C69D2CCB86, acc := 0x86ECCED3F121FE55, ctr := 0 } } }

/-! ### WellFormed smoke: each check refuses an ill-formed term -/

theorem smoke_word_reserved_bit : commandWordWf 0x0000000000000100 = false := by decide
theorem smoke_word_unassigned : commandWordWf 0x0000000000000003 = false := by decide
theorem smoke_word_legal : commandWordWf 0x0000000000000031 = true := by decide
theorem smoke_access_size : accessSizeWf 3 = false ∧ accessSizeWf 0 = false ∧ accessSizeWf 16 = false := by decide
theorem smoke_read_size : (BusAccess.read 0x10000 3).wf = false := by decide
theorem smoke_write_offset : (BusAccess.write 0x20000 8 0).wf = false := by decide
theorem smoke_host_op : (HostOp.access (.read 0x20000 8)).wf = false ∧ HostOp.wait.wf = true := by decide
theorem smoke_wrb : (ScriptOp.wrb 0 3 0).wf = false ∧ (ScriptOp.rdb 0 5).wf = false := by decide

/-! ### Decoding: words written bit by bit (R110, R114), and illegal words (R112, R115) -/

theorem decode_nop : decode 0b0 = .ok .nop := by decide
theorem decode_prngSeed : decode 0b00000001 = .ok .prngSeed := by decide
theorem decode_prngNext : decode 0b00000010 = .ok .prngNext := by decide
theorem decode_bcEnc : decode 0b00010000 = .ok .bcEnc := by decide
theorem decode_bcDec : decode 0b00010001 = .ok .bcDec := by decide
theorem decode_btPad : decode 0b00100000 = .ok .btPad := by decide
theorem decode_btUnpad : decode 0b00100001 = .ok .btUnpad := by decide
theorem decode_btEnc : decode 0b00100010 = .ok .btEnc := by decide
theorem decode_btDec : decode 0b00100011 = .ok .btDec := by decide
theorem decode_keyWipe : decode 0b00110000 = .ok .keyWipe := by decide
theorem decode_bufWipe : decode 0b00110001 = .ok .bufWipe := by decide

/-- EN-7 to EN-11, and the ends of the unassigned ranges of R115. -/
theorem decode_illegal :
    decode 0x03 = .error .unassignedOpcode ∧ decode 0x0F = .error .unassignedOpcode ∧
    decode 0x12 = .error .unassignedOpcode ∧ decode 0x24 = .error .unassignedOpcode ∧
    decode 0x32 = .error .unassignedOpcode ∧ decode 0xFF = .error .unassignedOpcode ∧
    decode 0x100 = .error .reservedBits ∧ decode 0x8000000000000010 = .error .reservedBits ∧
    decode 0x120 = .error .reservedBits := by decide

theorem table_word_nop : decodeTableWord 64 0 = some .nop := by decide
theorem table_word_illegal : decodeTableWord 64 0x100 = none := by decide

/-- R120: mnemonics in any case. -/
theorem assembler_any_case : assemble "Bt.UnPad".toList = some .btUnpad ∧ assemble "bt.".toList = none := by decide

/-! ### The first step after reset runs the placed command (assumption log 5) -/

theorem reset_runs_nop : step (State.reset.withFetchWord 64 0x00) = exec .nop (pendingWord State.reset 0x00) := rfl
theorem reset_runs_bufWipe : step (State.reset.withFetchWord 64 0x31) = exec .bufWipe (pendingWord State.reset 0x31) := rfl

/-- EN-1, EN-7 to EN-10: STATUS after a word from reset. -/
theorem status_after_words :
    [0x00, 0x03, 0xFF, 0x100, 0x8000000000000010].map (fun w => regOf (step (refReset.withFetchWord 64 w)) .status) =
      [some 0x2, some 0x106, some 0x106, some 0x106, some 0x106] := by decide

/-! ### Registers and host accesses (MM) -/

/-- MM-1, MM-2, MM-3, MM-10. -/
theorem mm_reset_reads :
    readOf (hostRead refReset 0x00 8) = some 0x4855584600000001 ∧
    readOf (hostRead refReset 0x08 8) = some 0x0000000020001010 ∧
    readOf (hostRead refReset 0x20 8) = some 0 ∧ readOf (hostRead refReset 0xA8 8) = some 0 ∧
    readOf (hostRead refReset 0x18 8) = some 0 := by decide

/-- MM-4, MM-5, MM-6. -/
theorem mm_register_writes :
    regOf (hostWrite refReset 0x10 8 0xFF) .ctrl = some 0x1 ∧
    regOf (hostWrite refReset 0x00 8 5) .id = some 0x4855584600000001 ∧
    regOf (hostWrite refReset 0x40 8 5) .prngX = some 0 ∧
    regOf (hostWrite refReset 0xA0 8 0x0000000100000005) .btLen = some 0x5 := by decide

/-- MM-7. -/
theorem mm_little_endian :
    ([(0, 1), (1, 1), (6, 2), (4, 4), (0, 8)].map fun p =>
      readOf (hostRead (refReset.setBuf (refReset.buf.store 0 8 0x0807060504030201)) (0x10000 + p.1) p.2)) =
      [some 0x01, some 0x02, some 0x0807, some 0x08070605, some 0x0807060504030201] := by decide

/-- MM-8, MM-9. -/
theorem mm_stops :
    hostRead refReset 0x10000 1 = .fault .unwrittenByte ∧ hostRead refReset 0x10001 2 = .refused .busError ∧
    hostRead refReset (0x10000 + 8192) 1 = .refused .busError ∧ hostRead refReset 0x18 4 = .refused .busError :=
  ⟨rfl, rfl, rfl, rfl⟩

/-! ### Commands -/

/-- CT-1. -/
theorem ct_nop_irq : regOf (exec .nop (pendingWord (withRegs refReset [(.ctrl, 1)]) 0)) .status = some 0x2 ∧
    (match exec .nop (pendingWord (withRegs refReset [(.ctrl, 1)]) 0) with
      | .next t => t.ctl.irq
      | _ => false) = true := by decide

/-- PR-3. -/
theorem pr_seed_42 :
    ([RegName.prngX, .prngY, .prngAcc, .prngCtr, .prngOut, .status].map
      (regOf (exec .prngSeed (pendingWord (withRegs refReset [(.prngSeed, 0x2A)]) 1)))) =
      [some 0x25F8EF946B6D6664, some 0xE9B4E4C69D2CCB86, some 0x86ECCED3F121FE55, some 0, some 0, some 0x12] := by
  decide +kernel

/-- PR-5, call 1, and the state of R149's example. -/
theorem pr_next_0 :
    ([RegName.prngOut, .prngX, .prngY, .prngAcc, .prngCtr].map (regOf (exec .prngNext seededState))) =
      [some 0xF10C6858CA9B2EC9, some 0x713E437D8DABEF19, some 0xBBDC3DE57EC86E3E, some 0x3BEE16C039F8AFEE, some 1] := by
  decide +kernel

/-- ER-2. -/
theorem er_next_unseeded : regOf (exec .prngNext (pendingWord refReset 2)) .status = some 0x206 := by decide

/-- PR-8: the counter wraps. -/
theorem pr_counter_wraps :
    nextWord Params.ref ⟨0x25F8EF946B6D6664, 0xE9B4E4C69D2CCB86, 0x86ECCED3F121FE55, 0xFFFFFFFFFFFFFFFF⟩ 0 =
      (⟨0x8EC1BC82725410E5, 0xDB079A497109FF59, 0xF36047998E77E76F, 0⟩, 0xA6A661528D2A08D3) := by
  decide +kernel

/-- BC-E6, both columns. -/
theorem bc_enc_e6 : regOf (exec .bcEnc bcState) .bcData = some 0x0A9D0F569530DEB8 := by decide +kernel
theorem bc_dec_e6 : regOf (exec .bcDec bcState) .bcData = some 0xD3BEC5F6A1A4D3F0 := by decide +kernel

/-- BT-P2, BT-P7 and BT-P8. -/
theorem bt_pad_p2 : bytesOf (exec .btPad (withBytes btState [0x41, 0x42, 0x43])) 8 =
    some [0x41, 0x42, 0x43, 0x05, 0x05, 0x05, 0x05, 0x05] := by decide +kernel
theorem bt_pad_overflows : regOf (exec .btPad (withRegs refReset [(.btLen, 8192)])) .status = some 0x506 ∧
    regOf (exec .btPad (withRegs refReset [(.btLen, 0x2001)])) .status = some 0x506 := by decide

/-- BT-U1 to BT-U11. -/
theorem bt_unpad_vectors :
    ([[0x41, 0x41, 0x41, 0x05, 0x05, 0x05, 0x05, 0x05], [0x08, 0x08, 0x08, 0x08, 0x08, 0x08, 0x08, 0x08], [0x01],
      [0x41, 0x41, 0x41, 0x05, 0x05, 0x05, 0x05, 0x01], [0x41, 0x42, 0x01]].map fun b =>
        regOf (exec .btUnpad (withBytes refReset b)) .btLen) = [some 3, some 0, some 0, some 7, some 2] := by decide
theorem bt_unpad_rejects :
    ([[], [0x41, 0x41, 0x41, 0x41, 0x41, 0x41, 0x41, 0x00], [0x41, 0x41, 0x41, 0x41, 0x41, 0x41, 0x41, 0x09],
      [0x41, 0x03], [0x41, 0x41, 0x41, 0x05, 0x04, 0x05, 0x05, 0x05],
      [0x41, 0x41, 0x41, 0xFA, 0x05, 0x05, 0x05, 0x05]].map fun b =>
        regOf (exec .btUnpad (withBytes refReset b)) .status) = List.replicate 6 (some 0x306) := by decide

/-- BT-E3, and its inverse. -/
theorem bt_enc_e3 : bytesOf (exec .btEnc (withBytes btState [0x41, 0x42, 0x43, 0x05, 0x05, 0x05, 0x05, 0x05])) 8 =
    some [0xc1, 0x85, 0x41, 0x4e, 0x3f, 0xa3, 0xc6, 0xac] := by decide +kernel
theorem bt_dec_e3 : bytesOf (exec .btDec (withBytes btState [0xc1, 0x85, 0x41, 0x4e, 0x3f, 0xa3, 0xc6, 0xac])) 8 =
    some [0x41, 0x42, 0x43, 0x05, 0x05, 0x05, 0x05, 0x05] := by decide +kernel

/-- BT-E10, ER-5. -/
theorem bt_enc_lengths : regOf (exec .btEnc (withRegs refReset [(.btLen, 5)])) .status = some 0x406 ∧
    regOf (exec .btEnc refReset) .status = some 0x2 ∧
    regOf (exec .btDec (withRegs refReset [(.btLen, 0x2001)])) .status = some 0x506 := by decide

/-- CT-3. -/
theorem ct_key_wipe :
    ([RegName.btSk2, .bcKey, .prngX, .status].map
      (regOf (exec .keyWipe { seededState with regs := { seededState.regs with btSk2 := 0x1234, bcKey := 7 } }))) =
      [some 0, some 0, some 0x25F8EF946B6D6664, some 0x12] := by decide

/-- CT-4 and CT-5: no length check. -/
theorem ct_buf_wipe : regOf (exec .bufWipe (withRegs refReset [(.btLen, 0x2001)])) .btLen = some 0 ∧
    bytesOf (exec .bufWipe (withRegs refReset [(.btLen, 16)])) 8 = some [0, 0, 0, 0, 0, 0, 0, 0] := by decide +kernel

/-- CT-6 and CT-7: the second CMD write is dropped. -/
theorem ct_overrun : regOf (hostWrite (pendingWord refReset 0) 0x20 8 2) .status = some 0x9 ∧
    regOf (engineStep ((pendingWord refReset 0).writeReg .cmd 2)) .status = some 0xA := by decide

/-- CT-9, CT-10 and CT-11: the write of STATUS. -/
theorem ct_status_w1c :
    ([[(RegName.status, (2 : Word64))], [(.status, 2), (.status, 0x11)], [(.status, 2), (.status, 0x11), (.status, 4)]].map
      fun ws => (withRegs (refReset.raiseError .notSeeded).finish ws).readReg .status) = [0x204, 0x204, 0x0] := by decide

/-- CT-12 to CT-14: the BUSY period of BC.ENC. -/
theorem ct_busy_period : readOf (hostRead (pendingWord bcState 0x10) 0x70 8) = some (Config.draw 0) ∧
    readOf (hostRead (pendingWord bcState 0x10) 0x60 8) = some 0x0123456789ABCDEF ∧
    hostWrite (pendingWord bcState 0x10) 0x60 8 1 = .refused .writeWhileBusy := ⟨rfl, rfl, rfl⟩

/-- R311: of a wide read while BT.PAD is pending, only the pad bytes are draws. -/
theorem busy_read_mixes_bytes :
    readOf (hostRead (pendingWord { btState with buf := [(0, 0x41), (1, 0x42)], regs := { btState.regs with btLen := 1 } }
      0x20) 0x10000 2) = some ((0x4241 &&& ~~~(0xFF00 : Word64)) ||| (Config.draw 0 &&& 0xFF00)) := rfl

/-! ### Witnesses: for each obligation with hypotheses, a state and operands that meet them all -/

/-- The state of a host program with one operation. -/
def withOp (s : State) (op : HostOp) : State := s.setHost { program := [op], pc := 0, seen := [] }

/-- BC.ENC, BT.PAD and BT.ENC pending. -/
def busyBc : State := pendingWord bcState 0x10
def busyPad : State := pendingWord (withBytes btState [0x41, 0x42, 0x43]) 0x20
def busyEnc : State := pendingWord (withBytes btState [1, 2, 3, 4, 5, 6, 7, 8]) 0x22

/-- Eight padded bytes, and eight more. -/
def padded : State := withBytes btState [0x41, 0x42, 0x43, 0x05, 0x05, 0x05, 0x05, 0x05]
def twoBlocks : State := withBytes btState [1, 2, 3, 4, 5, 6, 7, 8, 1, 2, 3, 4, 5, 6, 7, 8]

theorem witness_OnlyItsOwnWordDecodesToACommand :
    (0x100 : Word64).getLsbD 8 = true ∧ (0x8000000000000010 : Word64).getLsbD 63 = true := by decide

theorem witness_AssemblerReadsMnemonicsInAnyCase : "bc.enc".toList.map Char.toUpper = mnemonic .bcEnc := by decide

theorem witness_StepRunsThePendingCommand :
    busyBc.ctl.busy = true ∧ busyBc.nextMover = .engine ∧ decode busyBc.ctl.pending = .ok .bcEnc := by decide

theorem witness_IllegalWordsCompleteWithIllegalCommand :
    refReset.ctl.busy = false ∧ (∀ i, (0x03 : Word64) ≠ encode i) ∧ (∀ i, (0x120 : Word64) ≠ encode i) :=
  ⟨rfl, fun i => by cases i <;> decide, fun i => by cases i <;> decide⟩

/-- Both outcomes occur. -/
theorem witness_PendingCommandCompletesOrFaults :
    (busyBc.ctl.busy = true ∧ busyBc.nextMover = .engine ∧ isNext (step busyBc) = true) ∧
    ((pendingWord (withRegs refReset [(.btLen, 8)]) 0x22).ctl.busy = true ∧
      (pendingWord (withRegs refReset [(.btLen, 8)]) 0x22).nextMover = .engine ∧
      step (pendingWord (withRegs refReset [(.btLen, 8)]) 0x22) = .fault .unwrittenByte) :=
  ⟨⟨rfl, rfl, rfl⟩, rfl, rfl, rfl⟩

/-- The host's turn; a write that is made, one that is refused; a read that answers, that faults and that is refused; `wait` busy
and idle; the end of the program. -/
theorem witness_HostStepAdvancesTheIndex :
    (withOp refReset .wait).nextMover = .host ∧
    ((withOp refReset (.access (.write 0x28 8 5))).host.program[0]? = some (.access (.write 0x28 8 5)) ∧
      hostWrite (withOp refReset (.access (.write 0x28 8 5))) 0x28 8 5 =
        .next ((withOp refReset (.access (.write 0x28 8 5))).writeReg .prngSeed 5)) ∧
    hostWrite (withOp busyBc (.access (.write 0x28 8 5))) 0x28 8 5 = .refused .writeWhileBusy ∧
    ((withOp refReset (.access (.read 0x00 8))).host.program[0]? = some (.access (.read 0x00 8)) ∧
      hostRead (withOp refReset (.access (.read 0x00 8))) 0x00 8 =
        .next (withOp refReset (.access (.read 0x00 8)), 0x4855584600000001)) ∧
    hostRead (withOp refReset (.access (.read 0x10000 1))) 0x10000 1 = .fault .unwrittenByte ∧
    hostRead (withOp refReset (.access (.read 0x18 4))) 0x18 4 = .refused .busError ∧
    (withOp busyBc .wait).host.program[0]? = some .wait ∧ (withOp refReset .wait).host.program[0]? = some .wait ∧
    refReset.host.program[refReset.host.pc]? = none :=
  ⟨rfl, ⟨rfl, rfl⟩, rfl, ⟨rfl, rfl⟩, rfl, rfl, rfl, rfl, rfl⟩

/-- R121: the host's step makes the write of its operation, and moves on. -/
theorem host_step_writes :
    regOf (step (withOp refReset (.access (.write 0x28 8 5)))) .prngSeed = some 5 ∧
    (match step (withOp refReset (.access (.write 0x28 8 5))) with
      | .next t => t.host.pc
      | _ => 0) = 1 := by decide

/-- The first and the last buffer byte, the first and the last reserved offset. -/
theorem witness_ResetLeavesTheSpecValues :
    0 < State.reset.params.bufSize ∧ State.reset.params.bufSize - 1 < State.reset.params.bufSize ∧
    RegName.prngSeed ≠ .id ∧ RegName.prngSeed ≠ .cfg ∧
    RegName.ofOffset 0xA8 = none ∧ RegName.ofOffset 0xF8 = none := by
  have := Params.bufSize_ge State.reset.params
  exact ⟨by omega, by omega, by decide, by decide, rfl, rfl⟩

theorem witness_ResetEventGivesTheResetState :
    State.nextMover { busyBc with schedule := [.reset] } = .reset := rfl

theorem witness_IdAndCfgAreConstants : ∃ t, step busyBc = .next t := ⟨_, rfl⟩

theorem witness_CmdWriteAcceptsOrOverruns : refReset.ctl.busy = false ∧ busyBc.ctl.busy = true := by decide

theorem witness_ReservedOffsets :
    (0xA8 ≤ 0xA8 ∧ 0xA8 ≤ 0xF8 ∧ 0xA8 % 8 = 0) ∧ (0xA8 ≤ 0xF8 ∧ 0xF8 ≤ 0xF8 ∧ 0xF8 % 8 = 0) := by decide

/-- A read that is plain and one that is a draw; a read-only register. -/
theorem witness_ReadsAndReadOnlyWritesHaveNoEffect :
    hostRead refReset 0x00 8 = .next (refReset, 0x4855584600000001) ∧
    hostRead busyBc 0x70 8 = .next (busyBc.nextDraw, Config.draw 0) ∧
    RegName.prngCtr ∈ [RegName.id, .cfg, .prngOut, .prngX, .prngY, .prngAcc, .prngCtr] :=
  ⟨rfl, rfl, by decide⟩

theorem witness_OperandRegistersStoreWhatIsWritten :
    RegName.isOperand .prngSeed = true ∧ RegName.isOperand .btLen = true ∧ refReset.ctl.busy = false := by decide

/-- The last admitted and the first refused offsets of both windows. -/
theorem witness_UnadmittedAccessesAreBusErrors :
    refReset.params.bufSize = 8192 ∧ isNext (hostRead refReset 0xF8 8) = true ∧
    hostRead refReset 0x100 8 = .refused .busError ∧ hostRead refReset 0xFFF8 8 = .refused .busError ∧
    isNext (hostWrite refReset (0x10000 + 8184) 8 0) = true ∧
    hostRead refReset (0x10000 + 8192) 1 = .refused .busError := ⟨rfl, rfl, rfl, rfl, rfl, rfl⟩

theorem witness_BufferAccessesAreLittleEndian :
    padded.ctl.busy = false ∧ 0 % 8 = 0 ∧ 0 + 8 ≤ padded.params.bufSize ∧ 8191 % 1 = 0 ∧
    8191 + 1 ≤ padded.params.bufSize ∧ (∀ k, k < 8 → (padded.buf.byteAt (0 + k)).isSome = true) ∧
    (∃ k, k < 1 ∧ padded.buf.byteAt (8191 + k) = none) := by
  refine ⟨rfl, rfl, by decide, rfl, by decide, by decide, 0, by decide, by decide⟩

theorem witness_BusyWritesOfOperandsAreRefused :
    busyBc.ctl.busy = true ∧ 0 + 8 ≤ busyBc.params.bufSize ∧ 8191 % 1 = 0 ∧ 8191 + 1 ≤ busyBc.params.bufSize := by decide

/-- BT.PAD pending with bytes 0 to 3 holding values and BT_LEN 3, and an illegal word pending. -/
def busyPadFour : State := { busyPad with buf := [(0, 0x41), (1, 0x42), (2, 0x43), (3, 0x44)] }
def busyIllegal : State := pendingWord padded 0x120

/-- Each clause: a register drawn and one not; a wide read with a byte drawn and one not, one with none drawn, one with a byte
that holds no value, and the last byte of the buffer; an illegal word pending, with a read of each kind. -/
theorem witness_BusyReadsOfTheWriteSetAreDraws :
    (busyPadFour.ctl.busy = true ∧ decode busyPadFour.ctl.pending = .ok .btPad) ∧
    (writesReg .btPad .btLen = true ∧ writesReg .btPad .bcKey = false) ∧
    ((∀ k, k < 2 → (busyPadFour.buf.byteAt (2 + k)).isSome = true) ∧ busyPadFour.writesByte .btPad 2 = false ∧
      busyPadFour.writesByte .btPad 3 = true) ∧
    (∀ k, k < 2 → (busyPadFour.buf.byteAt (0 + k)).isSome = true ∧ busyPadFour.writesByte .btPad (0 + k) = false) ∧
    (0 + 8 ≤ busyPadFour.params.bufSize ∧ ∃ k, k < 8 ∧ busyPadFour.buf.byteAt (0 + k) = none) ∧
    (8191 + 1 ≤ busyPadFour.params.bufSize ∧ busyPadFour.buf.byteAt (8191 + 0) = none) ∧
    (busyIllegal.ctl.busy = true ∧ decode busyIllegal.ctl.pending = .error .reservedBits ∧
      (∀ k, k < 8 → (busyIllegal.buf.byteAt (0 + k)).isSome = true) ∧ busyIllegal.buf.byteAt (8 + 0) = none) := by
  refine ⟨by decide, by decide, by decide, by decide, ⟨by decide, 4, by decide, by decide⟩, by decide, by decide⟩

/-- R311 and log 8: while an illegal word is pending a read of BT_LEN or of the buffer is its value. -/
theorem busy_illegal_reads_values :
    readOf (hostRead busyIllegal 0xA0 8) = some 8 ∧ readOf (hostRead busyIllegal 0x10000 8) = some 0x0505050505434241 := by
  decide

theorem witness_IrqFollowsEnableAndDone :
    hostWrite refReset 0x18 8 2 = .next (refReset.writeReg .status 2) ∧ (2 : Word64).getLsbD 1 = true ∧
    hostWrite refReset 0x10 8 0 = .next (refReset.writeReg .ctrl 0) ∧ (0 : Word64).getLsbD 0 = false ∧
    hostWrite refReset 0x20 8 0 = .next (refReset.writeReg .cmd 0) ∧ refReset.ctl.busy = false ∧
    hostWrite busyBc 0x20 8 0 = .next (busyBc.writeReg .cmd 0) ∧ busyBc.ctl.busy = true ∧
    ∃ t, exec .nop busyBc = .next t := ⟨rfl, rfl, rfl, rfl, rfl, rfl, rfl, rfl, _, rfl⟩

theorem witness_NopOnlyCompletes : refReset.ctl.busy = false := rfl

theorem witness_PrngNext : seededState.ctl.seeded = true ∧ refReset.ctl.seeded = false := by decide

/-- Two states with different histories and one seed. -/
theorem witness_SeedAndTweaksDetermineTheOutputs :
    seededState.variant = (withRegs bcState [(.prngSeed, 0x2A)]).variant ∧
    seededState.readReg .prngSeed = (withRegs bcState [(.prngSeed, 0x2A)]).readReg .prngSeed ∧
    isNext (exec .prngSeed seededState) = true ∧ isNext (exec .prngSeed (withRegs bcState [(.prngSeed, 0x2A)])) = true := by
  decide

theorem witness_CipherCommandsIgnoreThePrngUnit :
    [Instr.bcEnc, .bcDec, .btPad, .btUnpad, .btEnc, .btDec].all (fun i => isNext (exec i padded)) = true := by decide +kernel

theorem witness_BcDecDecryptsTheBlock :
    ∃ t u, exec .bcEnc bcState = .next t ∧ exec .bcDec t = .next u := ⟨_, _, rfl, rfl⟩

/-- LEN at 0 and at BUF_SIZE - 1, with bytes, and at BUF_SIZE. -/
theorem witness_BtPadAppendsThePad :
    refReset.len < refReset.params.bufSize ∧
    (withRegs refReset [(.btLen, 8191)]).len < (withRegs refReset [(.btLen, 8191)]).params.bufSize ∧
    padded.len < padded.params.bufSize ∧ (padded.buf.bytes 0 padded.len).isSome = true ∧
    (withRegs refReset [(.btLen, 8192)]).params.bufSize ≤ (withRegs refReset [(.btLen, 8192)]).len := by decide

/-- Each clause of BT.UNPAD. -/
theorem witness_BtUnpadChecksAndRemovesThePad :
    (withRegs refReset [(.btLen, 8193)]).params.bufSize < (withRegs refReset [(.btLen, 8193)]).len ∧
    refReset.len = 0 ∧
    ((withRegs refReset [(.btLen, 1)]).len = 1 ∧ (withRegs refReset [(.btLen, 1)]).buf.byteAt 0 = none) ∧
    ((withBytes refReset [0]).buf.byteAt 0 = some 0 ∧ (withBytes refReset [9]).buf.byteAt 0 = some 9 ∧
      (withBytes refReset [2]).buf.byteAt 0 = some 2 ∧ (withBytes refReset [2]).len < 2) ∧
    (({ padded with buf := [(7, 0x02)] } : State).buf.byteAt (padded.len - 1) = some 2 ∧
      ({ padded with buf := [(7, 0x02)] } : State).buf.byteAt 6 = none) ∧
    ((withBytes refReset [0x41, 0x02]).buf.byteAt 1 = some 2 ∧ (withBytes refReset [0x41, 0x02]).buf.byteAt 0 ≠ some 2) ∧
    (∀ k, padded.len - 5 ≤ k → k < padded.len → padded.buf.byteAt k = some 5) ∧
    (padded.buf.bytes 0 padded.len).isSome = true := by
  refine ⟨by decide, by decide, by decide, by decide, by decide, by decide, ?_, by decide⟩
  intro k h1 h2
  have : k = 3 ∨ k = 4 ∨ k = 5 ∨ k = 6 ∨ k = 7 := by
    have e : padded.len = 8 := by decide
    omega
  rcases this with rfl | rfl | rfl | rfl | rfl <;> rfl

/-- Each clause of BT.ENC and BT.DEC, with a block of the last one; LEN = 0 meets the last one too. -/
theorem witness_BtTransforms :
    (withRegs refReset [(.btLen, 8193)]).params.bufSize < (withRegs refReset [(.btLen, 8193)]).len ∧
    ((withRegs refReset [(.btLen, 5)]).len ≤ 8192 ∧ (withRegs refReset [(.btLen, 5)]).len % 8 ≠ 0) ∧
    ((withRegs refReset [(.btLen, 8)]).len % 8 = 0 ∧ (withRegs refReset [(.btLen, 8)]).buf.byteAt 7 = none) ∧
    (padded.len ≤ padded.params.bufSize ∧ padded.len % 8 = 0 ∧ (padded.buf.bytes 0 padded.len).isSome = true) ∧
    (∀ k, k < 8 → padded.buf.byteAt (8 * 0 + k) = some ((0x0505050505434241 : Word64).extractLsb' (8 * k) 8)) ∧
    (refReset.len ≤ refReset.params.bufSize ∧ refReset.len % 8 = 0 ∧ refReset.buf.bytes 0 refReset.len = some []) := by
  decide

theorem witness_BtCommandsCheckTheLengthFirst :
    Instr.btDec ∈ [Instr.btPad, .btUnpad, .btEnc, .btDec] ∧
    (withRegs refReset [(.btLen, 8193)]).params.bufSize < (withRegs refReset [(.btLen, 8193)]).len := by decide

/-- A state of the invariant with a listed buffer. -/
theorem padded_inv : padded.Inv :=
  ⟨by decide, by decide, by decide, by decide, fun h => absurd h (by decide), fun _ => ⟨rfl, rfl⟩⟩

theorem witness_CommandsChangeOnlyTheirWriteSet : padded.Inv ∧ ∃ t, exec .bufWipe padded = .next t :=
  ⟨padded_inv, _, rfl⟩

theorem witness_FailedCommandsChangeOnlyStatus :
    ([0x02, 0x100].all fun w => (pendingWord refReset w).ctl.busy && !(pendingWord refReset w).ctl.err &&
      (match engineStep (pendingWord refReset w) with
        | .next t => t.ctl.err
        | _ => false)) = true := by decide

theorem witness_OnlyBufferReadersCanFault :
    [Instr.btUnpad, .btEnc, .btDec].all (fun i =>
      match exec i (withRegs refReset [(.btLen, 8)]) with
      | .fault _ => true
      | _ => false) = true := by decide

theorem witness_ScheduleHasEightRoundsAndNeedsOnlyTheXor :
    Params.ref.nks = 2 ∧ 1 < Params.ref.nks ∧ (1 : Word64) ^^^ 2 = 2 ^^^ 1 ∧ (1 : Word64) ≠ 2 := by decide

/-- Each clause: an earlier pad byte, the last pad byte complemented, the last pad byte to 1. -/
theorem witness_PaddingRejectionLaw :
    (3 + 1 < (pad [0x41, 0x41, 0x41]).length ∧ (pad [0x41, 0x41, 0x41])[3]? ≠ some 4) ∧
    (pad [0x41, 0x41, 0x41])[7]? = some 5 ∧ (1 : Byte).toNat ≤ (pad [0x41, 0x41, 0x41]).length ∧
    ((pad [0x41, 0x41, 0x41]).set 7 1)[7]? = some 1 := by decide

/-- Two equal blocks at two indexes. -/
theorem witness_BlocksAreTransformedIndependently :
    twoBlocks.ctl.err = false ∧ isNext (exec .btEnc twoBlocks) = true ∧
    regOf (exec .btEnc twoBlocks) .status = some 0x2 ∧ 8 * 1 < twoBlocks.len ∧
    twoBlocks.buf.load (8 * 0) 8 = some 0x0807060504030201 ∧ twoBlocks.buf.load (8 * 1) 8 = some 0x0807060504030201 := by
  decide +kernel

theorem zeros_bytes (n : Nat) : (Memory.zeros 0 n).bytes 0 n = some (List.replicate n 0) := by
  rw [Memory.bytes_eq_some_iff]
  refine ⟨List.length_replicate, fun k hk => ?_⟩
  rw [List.length_replicate] at hk
  rw [Memory.byteAt_zeros, if_pos (by omega), List.getElem_replicate]

/-- Lengths 0, 3 and BUF_SIZE - 1. -/
theorem witness_CascadeRoundTripRestoresTheBuffer :
    (refReset.ctl.err = false ∧ refReset.len = 0 ∧ refReset.buf.bytes 0 0 = some [] ∧ 0 + (8 - 0 % 8) ≤ 8192) ∧
    ((withBytes btState [0x41, 0x42, 0x43]).len = 3 ∧
      (withBytes btState [0x41, 0x42, 0x43]).buf.bytes 0 3 = some [0x41, 0x42, 0x43]) ∧
    ((Memory.zeros 0 8191).bytes 0 8191 = some (List.replicate 8191 0) ∧ 8191 + (8 - 8191 % 8) ≤ 8192) := by
  exact ⟨by decide, by decide, zeros_bytes 8191, by decide⟩

theorem witness_StepKeepsTheInvariant : padded.Inv ∧ ∃ t, step (withOp padded .wait) = .next t := ⟨padded_inv, _, rfl⟩

/-- SEEDED set by PRNG.SEED, and cleared by a reset (CT-15). -/
theorem witness_OnlySeedingSetsSeeded :
    (∃ t, step (pendingWord refReset 1) = .next t ∧ t.ctl.seeded ≠ (pendingWord refReset 1).ctl.seeded) ∧
    (∃ t, step { seededState with schedule := [.reset] } = .next t ∧ t.ctl.seeded ≠ seededState.ctl.seeded) :=
  ⟨⟨_, rfl, by decide⟩, _, rfl, by decide⟩

/-- Acceptance, completion, and a reset while busy. -/
theorem witness_OnlyAcceptanceAndCompletionChangeBusy :
    (∃ t, step (withOp refReset (.access (.write 0x20 8 0))) = .next t ∧ t.ctl.busy ≠ refReset.ctl.busy) ∧
    (∃ t, step busyBc = .next t ∧ t.ctl.busy ≠ busyBc.ctl.busy) ∧
    (∃ t, step { busyBc with schedule := [.reset] } = .next t ∧ t.ctl.busy ≠ busyBc.ctl.busy) :=
  ⟨⟨_, rfl, by decide⟩, ⟨_, rfl, Bool.noConfusion⟩, _, rfl, by decide⟩

/-- An overrun, its acknowledgement, and a reset. -/
theorem witness_OverrunIsSticky :
    (∃ t, step { withOp busyEnc (.access (.write 0x20 8 0)) with schedule := [.host] } = .next t ∧
      busyEnc.ctl.ovr = false ∧ t.ctl.ovr = true) ∧
    (∃ t, step (withOp { refReset with ctl := { refReset.ctl with ovr := true } } (.access (.write 0x18 8 8))) = .next t ∧
      t.ctl.ovr = false) ∧
    (∃ t, step { refReset with ctl := { refReset.ctl with ovr := true }, schedule := [.reset] } = .next t ∧
      t.ctl.ovr = false) :=
  ⟨⟨_, rfl, by decide, by decide⟩, ⟨_, rfl, by decide⟩, _, rfl, by decide⟩

theorem witness_OnlyPrngCommandsChangeThePrngWords :
    regOf (step (pendingWord seededState 2)) .prngCtr = some 1 ∧
    regOf (step { seededState with schedule := [.reset] }) .prngX = some 0 := by decide +kernel

end Sys2Proof.Tests
end

section
/-! The parameters of the core and the buffer window of an idle host (00_scope.md R7, R13; 20_memory.md R84). -/

namespace Sys2Proof.Machine

/-! ### Parameters -/

/-- Settles O41: each bound is carried by the type of the field it is about. -/
theorem parametersMeetTheirConstraints : Obligations.ParametersMeetTheirConstraints := by
  intro P
  have l64_le : P.l64 ≤ 255 := P.l64Pred.isLt
  have l32_le : P.l32 ≤ 255 := P.l32Pred.isLt
  have rc64_length : P.rc64.toList.length = P.l64 := P.rc64.length_toList
  have rc32_length : P.rc32.toList.length = P.l32 := P.rc32.length_toList
  exact ⟨Nat.succ_pos _, l64_le, rc64_length, Nat.succ_pos _, l32_le, rc32_length, Nat.succ_pos _,
    Params.bufSize_mod P, Params.bufSize_ge P, Params.bufSize_le P⟩

/-! ### The buffer window -/

section BufferWindow

variable {s : State} {a n : Nat}

/-- An admitted write of the buffer while idle is `MemWrite` (00_scope.md R13; 20_memory.md R84). -/
theorem hostWrite_buf_of_idle (hbusy : s.ctl.busy = false) (hn : n = 1 ∨ n = 2 ∨ n = 4 ∨ n = 8) (ha : a % n = 0)
    (hb : a + n ≤ s.params.bufSize) (v : Word64) :
    hostWrite s (0x10000 + a) n v = .next (s.setBuf (s.buf.store a n v)) := by
  simp only [hostWrite, target_buf hn ha hb, State.hostWriteBuf, hbusy, Bool.false_eq_true, if_false]

/-- An admitted read of the buffer is the buffer's read, busy or not (20_memory.md R84). -/
theorem hostRead_buf (hn : n = 1 ∨ n = 2 ∨ n = 4 ∨ n = 8) (ha : a % n = 0) (hb : a + n ≤ s.params.bufSize) :
    hostRead s (0x10000 + a) n = s.hostReadBuf a n := by
  simp only [hostRead, target_buf hn ha hb]

/-- A read of a byte that holds no value faults, busy or not (60_exceptions.md R286; 70_reset_and_hazards.md R311). -/
theorem State.hostReadBuf_of_load_eq_none (h : s.buf.load a n = none) : s.hostReadBuf a n = .fault .unwrittenByte := by
  simp only [State.hostReadBuf, h]

/-- While idle a read takes no draw: it is `MemRead` (00_scope.md R13). -/
theorem State.hostReadBuf_of_idle {w : Word64} (hbusy : s.ctl.busy = false) (h : s.buf.load a n = some w) :
    s.hostReadBuf a n = .next (s, w) := by
  simp only [State.hostReadBuf, h, hbusy, Bool.false_and, Bool.false_eq_true, if_false]

end BufferWindow

/-- Byte `k` of a store, as the bits `8k+7:8k` of the word stored (00_scope.md R13). -/
theorem Memory.byteAt_store_eq_extract (m : Memory) (a : Nat) {n k : Nat} (v : Word64) (hk : k < n) :
    (m.store a n v).byteAt (a + k) = some (v.extractLsb' (8 * k) 8) := by
  have hbyte : (v >>> (8 * k)).setWidth 8 = v.extractLsb' (8 * k) 8 := BitVec.eq_of_toNat_eq (by simp)
  rw [byteAt_store_inside n m a k v hk, hbyte]

/-- Settles O20: an idle access of the buffer window is a store or a load, taken byte by byte. -/
theorem bufferAccessesAreLittleEndian : Obligations.BufferAccessesAreLittleEndian := by
  intro s a n hbusy hn ha hb
  refine ⟨fun v => ?write, fun hvalues => ?read, fun ⟨k, hk, hnone⟩ => ?fault⟩
  case write =>
    exact ⟨_, hostWrite_buf_of_idle hbusy hn ha hb v, rfl, fun k hk => Memory.byteAt_store_eq_extract s.buf a v hk,
      fun x hx => Memory.byteAt_store_outside n s.buf a x v hx⟩
  case read =>
    have hn8 : n ≤ 8 := by omega
    obtain ⟨w, hload, hlt, hbytes⟩ := Memory.load_eq_some hn8 hvalues
    exact ⟨w, (hostRead_buf hn ha hb).trans (State.hostReadBuf_of_idle hbusy hload), hlt, hbytes⟩
  case fault =>
    have hload : s.buf.load a n = none := Memory.load_eq_none hk hnone
    exact (hostRead_buf hn ha hb).trans (State.hostReadBuf_of_load_eq_none hload)

end Sys2Proof.Machine
end

section
/-! What one step of the machine can do to the core, in six cases, and the invariant that every case keeps (10_state.md
R38, R39, R42, R46 to R48; 20_memory.md R81; 60_exceptions.md R260, R268). -/

namespace Sys2Proof.Machine

/-! ### The cases of a step -/

section SameCoreParts
variable {s t : State} (h : SameCore s t)
include h

theorem SameCore.variant : t.variant = s.variant := h.1
theorem SameCore.ctl : t.ctl = s.ctl := h.2.1
theorem SameCore.regs : t.regs = s.regs := h.2.2.1
theorem SameCore.buf : t.buf = s.buf := h.2.2.2
theorem SameCore.params : t.params = s.params := congrArg Variant.params h.variant

end SameCoreParts

theorem State.writeReg_popMover (s : State) (r : RegName) (v : Word64) :
    s.popMover.writeReg r v = (s.writeReg r v).popMover := by cases r <;> rfl

/-- What a step from `s` to `t` does to the core: the whole of 10_state.md R32 with the reset event of R300. -/
inductive StepCase (s t : State) : Prop
  /-- A read, a turn of `wait`, an ignored write, or a turn of an agent that has no step. -/
  | unchanged (hsame : SameCore s t)
  | registerWrite (r : RegName) (v : Word64) (hmover : s.nextMover = .host)
      (hguard : (s.ctl.busy && r.isOperand) = false)
      (hop : s.host.program[s.host.pc]? = some (.access (.write r.offset 8 v))) (hsame : SameCore (s.writeReg r v) t)
  | bufferWrite (a n : Nat) (v : Word64) (hmover : s.nextMover = .host) (hbusy : s.ctl.busy = false)
      (hinside : a + n ≤ s.params.bufSize) (hsame : SameCore (s.setBuf (s.buf.store a n v)) t)
  | success (i : Instr) (s1 : State) (hmover : s.nextMover = .engine) (hbusy : s.ctl.busy = true)
      (hdecode : decode s.ctl.pending = .ok i) (hsucc : Succeeds i s.popMover s1) (ht : t = s1.finish)
  | failure (e : ErrorCode) (hmover : s.nextMover = .engine) (hbusy : s.ctl.busy = true) (hraised : e ≠ .invariant)
      (hsame : SameCore (s.raiseError e).finish t)
  | reset (hmover : s.nextMover = .reset) (ht : t = s.popMover.coreReset)

/-- No command raises the reserved code (60_exceptions.md R268). -/
theorem ne_invariant_of_mem_commandErrors {e : ErrorCode} (he : e ∈ commandErrors) : e ≠ .invariant := by
  rintro rfl
  exact absurd he (by decide)

/-- The inversion of a step. -/
theorem step_cases {s t : State} (h : step s = .next t) : StepCase s t := by
  rcases step_next h with ⟨hm, he⟩ | ⟨hm, hh⟩ | ⟨hm, ht⟩
  case inl =>
    rcases engineStep_next he with ⟨-, rfl⟩ | ⟨hb, i, hd, hx⟩ | ⟨hb, -, rfl⟩
    · exact .unchanged ⟨rfl, rfl, rfl, rfl⟩
    · rcases exec_next hx with ⟨s1, hs, ht⟩ | ⟨e, hmem, rfl⟩
      · exact .success i s1 hm hb hd hs ht
      · exact .failure e hm hb (ne_invariant_of_mem_commandErrors hmem) ⟨rfl, rfl, rfl, rfl⟩
    · exact .failure .illegalCommand hm hb (by decide) ⟨rfl, rfl, rfl, rfl⟩
  case inr.inl =>
    rcases hostStep_next hh with hsame | ⟨r, v, hg, hop, hsame⟩ | ⟨a, n, v, hb, hin, hsame⟩
    · exact .unchanged hsame
    · rw [State.writeReg_popMover] at hsame
      exact .registerWrite r v hm hg hop hsame
    · exact .bufferWrite a n v hm hb hin hsame
  case inr.inr => exact .reset hm ht

/-! ### What each case changes -/

section WriteReg
variable (s : State) (r : RegName) (v : Word64)

@[simp] theorem State.writeReg_variant : (s.writeReg r v).variant = s.variant := by cases r <;> rfl
@[simp] theorem State.writeReg_params : (s.writeReg r v).params = s.params := by cases r <;> rfl
@[simp] theorem State.writeReg_buf : (s.writeReg r v).buf = s.buf := by cases r <;> rfl
@[simp] theorem State.writeReg_host : (s.writeReg r v).host = s.host := by cases r <;> rfl

/-- The PRNG words are read-only (10_state.md R47, R48). -/
@[simp] theorem State.writeReg_prng : (s.writeReg r v).regs.prng = s.regs.prng := by cases r <;> rfl

/-- PRNG_OUT is read-only (10_state.md R46). -/
@[simp] theorem State.writeReg_prngOut : (s.writeReg r v).regs.prngOut = s.regs.prngOut := by cases r <;> rfl

/-- Only a write of CTRL, STATUS or CMD changes a flag. -/
theorem State.writeReg_ctl :
    (s.writeReg r v).ctl = s.ctl ∨ (r = .ctrl ∧ (s.writeReg r v).ctl = s.ctl.writeCtrl v) ∨
      (r = .status ∧ (s.writeReg r v).ctl = s.ctl.writeStatus v) ∨
      (r = .cmd ∧ (s.writeReg r v).ctl = s.ctl.writeCmd v) := by
  cases r
  case ctrl => exact .inr (.inl ⟨rfl, rfl⟩)
  case status => exact .inr (.inr (.inl ⟨rfl, rfl⟩))
  case cmd => exact .inr (.inr (.inr ⟨rfl, rfl⟩))
  all_goals exact .inl rfl

@[simp] theorem Control.writeCmd_seeded (c : Control) (v : Word64) : (c.writeCmd v).seeded = c.seeded := by
  unfold Control.writeCmd
  split <;> rfl

/-- No host write changes SEEDED (10_state.md R41). -/
@[simp] theorem State.writeReg_seeded : (s.writeReg r v).ctl.seeded = s.ctl.seeded := by
  rcases s.writeReg_ctl r v with h | ⟨-, h⟩ | ⟨-, h⟩ | ⟨-, h⟩ <;> simp [h]

end WriteReg

theorem Succeeds.variant {i : Instr} {s s1 : State} (h : Succeeds i s s1) : s1.variant = s.variant := h.frame.1

/-- The flags a success leaves before its completion: PRNG.SEED has set SEEDED (10_state.md R41). -/
theorem Succeeds.ctl {i : Instr} {s s1 : State} (h : Succeeds i s s1) :
    s1.ctl = if i = .prngSeed then s.ctl.markSeeded else s.ctl := by
  obtain ⟨-, -, -, -, hctl⟩ := h.frame
  exact hctl

/-- The commands other than PRNG.SEED and PRNG.NEXT leave the PRNG unit alone (30_encoding.md R118). -/
theorem Succeeds.prng_eq {i : Instr} {s s1 : State} (h : Succeeds i s s1) (hseed : i ≠ .prngSeed)
    (hnext : i ≠ .prngNext) : s1.regs.prng = s.regs.prng ∧ s1.regs.prngOut = s.regs.prngOut := by
  cases i with
  | prngSeed => exact absurd rfl hseed
  | prngNext => exact absurd rfl hnext
  | nop | bcEnc | bcDec | keyWipe | bufWipe => cases h; exact ⟨rfl, rfl⟩
  | btPad => obtain ⟨-, rfl⟩ := h; exact ⟨rfl, rfl⟩
  | btUnpad => obtain ⟨-, b, -, -, -, -, -, rfl⟩ := h; exact ⟨rfl, rfl⟩
  | btEnc | btDec => obtain ⟨-, -, m, -, rfl⟩ := h; exact ⟨rfl, rfl⟩

/-- No step changes the parameters (assumption log 1). -/
theorem step_variant {s t : State} (h : step s = .next t) : t.variant = s.variant := by
  cases step_cases h with
  | unchanged hsame => exact hsame.variant
  | registerWrite r v _ _ _ hsame => exact hsame.variant.trans (s.writeReg_variant r v)
  | bufferWrite a n v _ _ _ hsame => exact hsame.variant
  | success i s1 _ _ _ hsucc ht => exact ht ▸ hsucc.variant
  | failure e _ _ _ hsame => exact hsame.variant
  | reset _ ht => exact ht ▸ rfl

/-! ### A buffer in canonical form and inside its bounds -/

/-- The invariant's part about the buffer of `size` bytes (20_memory.md R81). -/
structure Memory.Fits (size : Nat) (m : Memory) : Prop where
  wf : Memory.wf m = true
  inside : ∀ c ∈ m, c.1 < size

namespace Memory.Fits
variable {size a n : Nat} {m : Memory}

theorem mem_setByte {c : Host.Cell} {b : Byte} (h : c ∈ m.setByte a b) : c = (a, b) ∨ c ∈ m := by
  induction m with
  | nil => exact .inl (by simpa [setByte] using h)
  | cons d m ih =>
    simp only [setByte] at h
    split at h
    · exact List.mem_cons.mp h
    · split at h
      · exact (List.mem_cons.mp h).imp_right (List.mem_cons_of_mem d)
      · rcases List.mem_cons.mp h with rfl | h
        · exact .inr (by simp)
        · exact (ih h).imp_right (List.mem_cons_of_mem d)

theorem setByte (h : m.Fits size) (ha : a < size) (b : Byte) : (m.setByte a b).Fits size := by
  refine ⟨setByte_wf a b h.wf, fun c hc => ?_⟩
  rcases mem_setByte hc with rfl | hc
  · exact ha
  · exact h.inside c hc

theorem store (h : m.Fits size) (hn : a + n ≤ size) (v : Word64) : (m.store a n v).Fits size := by
  induction n generalizing m a v with
  | zero => exact h
  | succ n ih => exact ih (h.setByte (by omega) _) (by omega) _

theorem fill (h : m.Fits size) (hn : a + n ≤ size) (b : Byte) : (m.fill a n b).Fits size := by
  induction n generalizing m a with
  | zero => exact h
  | succ n ih => exact ih (h.setByte (by omega) b) (by omega)

theorem zeros : (Memory.zeros 0 size).Fits size :=
  ⟨zeros_wf size 0, fun c hc => by have := zeros_mem hc; omega⟩

theorem mapBlocks {f : Word64 → Word64} {k j : Nat} {m' : Memory} (h : m.Fits size) (hk : 8 * (j + k) ≤ size)
    (hm : m.mapBlocks f k j = some m') : m'.Fits size := by
  induction k generalizing j m with
  | zero => cases hm; exact h
  | succ k ih =>
    rw [Memory.mapBlocks] at hm
    split at hm
    · cases hm
    · exact ih (h.store (by omega) _) (by omega) hm

end Memory.Fits

/-- Every successful command keeps the buffer inside its bounds (30_encoding.md R118). -/
theorem Succeeds.fits {i : Instr} {s s1 : State} (h : Succeeds i s s1) (hbuf : s.buf.Fits s.params.bufSize) :
    s1.buf.Fits s.params.bufSize := by
  cases i with
  | nop | prngSeed | bcEnc | bcDec | keyWipe => cases h; exact hbuf
  | prngNext => obtain ⟨-, rfl⟩ := h; exact hbuf
  | btPad =>
    obtain ⟨hlen, rfl⟩ := h
    exact hbuf.fill ((pad_fits_iff _ _).mpr hlen) _
  | btUnpad => obtain ⟨-, b, -, -, -, -, -, rfl⟩ := h; exact hbuf
  | btEnc | btDec =>
    obtain ⟨hlen, hmod, m, hm, rfl⟩ := h
    exact hbuf.mapBlocks (by omega) hm
  | bufWipe => cases h; exact Memory.Fits.zeros

/-! ### Consistent flags -/

/-- The invariant's part about CTRL and STATUS (10_state.md R38, R39, R42; 60_exceptions.md R260). -/
structure Control.Consistent (c : Control) : Prop where
  errcodeExact : c.errcode ≠ 0 ↔ c.err = true
  errcodeRaised : c.errcode.toNat ≤ 5
  busyClean : c.busy = true → c.done = false ∧ c.err = false

namespace Control.Consistent

theorem latch (c : Control) (v : Word64) : (c.latch v).Consistent :=
  ⟨by simp, Nat.zero_le 5, fun _ => ⟨rfl, rfl⟩⟩

/-- Taking an error ends the command at once, so ERR is never seen with BUSY (60_exceptions.md R261, R272). -/
theorem recordError_finish {e : ErrorCode} (c : Control) (he : e ≠ .invariant) :
    (c.recordError e).finish.Consistent := by
  have hcode : e.code ≠ 0 ∧ e.code.toNat ≤ 5 := by
    cases e with
    | invariant => exact absurd rfl he
    | illegalCommand | notSeeded | invalidPadding | lengthNotMultiple | bufferOverflow => decide
  exact ⟨⟨fun _ => rfl, fun _ => hcode.1⟩, hcode.2, Bool.noConfusion⟩

variable {c : Control} (h : c.Consistent) (v : Word64)
include h

theorem writeCtrl : (c.writeCtrl v).Consistent := ⟨h.errcodeExact, h.errcodeRaised, h.busyClean⟩

theorem writeStatus : (c.writeStatus v).Consistent := by
  obtain ⟨hexact, hraised, hclean⟩ := h
  refine ⟨?_, ?_, fun hbusy => ?_⟩
  · rw [Control.writeStatus_errcode, Control.writeStatus_err]
    cases v.getLsbD 2
    · exact hexact
    · simp
  · rw [Control.writeStatus_errcode]
    cases v.getLsbD 2
    · exact hraised
    · exact Nat.zero_le 5
  · simp [hclean hbusy]

theorem writeCmd : (c.writeCmd v).Consistent := by
  unfold Control.writeCmd
  split
  · exact ⟨h.errcodeExact, h.errcodeRaised, h.busyClean⟩
  · exact latch c v

theorem markSeeded : c.markSeeded.Consistent := ⟨h.errcodeExact, h.errcodeRaised, h.busyClean⟩

theorem finish : c.finish.Consistent := ⟨h.errcodeExact, h.errcodeRaised, Bool.noConfusion⟩

end Control.Consistent

theorem State.writeReg_consistent {s : State} (h : s.ctl.Consistent) (r : RegName) (v : Word64) :
    (s.writeReg r v).ctl.Consistent := by
  rcases s.writeReg_ctl r v with hc | ⟨-, hc⟩ | ⟨-, hc⟩ | ⟨-, hc⟩ <;> rw [hc]
  · exact h
  · exact h.writeCtrl v
  · exact h.writeStatus v
  · exact h.writeCmd v

/-! ### The invariant -/

/-- The invariant's part about the PRNG unit: nothing in it before a seeding (10_state.md R46 to R48). -/
def PrngClear (r : Registers) : Prop := r.prng = { x := 0, y := 0, acc := 0, ctr := 0 } ∧ r.prngOut = 0

theorem State.inv_iff (s : State) :
    s.Inv ↔ s.buf.Fits s.params.bufSize ∧ s.ctl.Consistent ∧ (s.ctl.seeded = false → PrngClear s.regs) := by
  constructor
  · rintro ⟨hwf, hinside, hexact, hraised, hclean, hprng⟩
    exact ⟨⟨hwf, hinside⟩, ⟨hexact, hraised, hclean⟩, hprng⟩
  · rintro ⟨⟨hwf, hinside⟩, ⟨hexact, hraised, hclean⟩, hprng⟩
    exact ⟨hwf, hinside, hexact, hraised, hclean, hprng⟩

/-- The invariant speaks of the core alone. -/
theorem State.Inv.of_sameCore {s t : State} (h : s.Inv) (hsame : SameCore s t) : t.Inv := by
  rw [State.inv_iff] at h ⊢
  rwa [hsame.ctl, hsame.regs, hsame.buf, hsame.params]

/-- The reset values meet the invariant, whatever stands beside them (70_reset_and_hazards.md R301). -/
theorem State.inv_resetWith (variant : Variant) (host : HostAgent) (schedule : List Mover) (draws : Nat) :
    (State.resetWith variant host schedule draws).Inv :=
  ⟨rfl, fun _ hc => absurd hc List.not_mem_nil, iff_of_false (not_not_intro rfl) Bool.noConfusion, Nat.zero_le 5,
    Bool.noConfusion, fun _ => ⟨rfl, rfl⟩⟩

theorem State.Inv.writeReg {s : State} (h : s.Inv) (r : RegName) (v : Word64) : (s.writeReg r v).Inv := by
  obtain ⟨hfits, hctl, hprng⟩ := s.inv_iff.mp h
  exact (State.inv_iff _).mpr ⟨by simpa using hfits, State.writeReg_consistent hctl r v, by simpa [PrngClear] using hprng⟩

/-- A command that succeeds leaves SEEDED set if it wrote the PRNG unit, and otherwise neither touches it. -/
theorem Succeeds.prngClear {i : Instr} {s s1 : State} (h : Succeeds i s s1)
    (hprng : s.ctl.seeded = false → PrngClear s.regs) : s1.ctl.seeded = false → PrngClear s1.regs := by
  intro hunseeded
  by_cases hseed : i = .prngSeed
  · simp [h.ctl, hseed] at hunseeded
  rw [h.ctl, if_neg hseed] at hunseeded
  by_cases hnext : i = .prngNext
  · subst hnext
    exact absurd h.1 (by simp [hunseeded])
  obtain ⟨hwords, hout⟩ := h.prng_eq hseed hnext
  rw [PrngClear, hwords, hout]
  exact hprng hunseeded

theorem State.Inv.succeeds {i : Instr} {s s1 : State} (h : s.Inv) (hsucc : Succeeds i s s1) : s1.finish.Inv := by
  obtain ⟨hfits, hcons, hprng⟩ := s.inv_iff.mp h
  have hparams : s1.params = s.params := congrArg Variant.params hsucc.variant
  have hcons1 : s1.ctl.Consistent := by
    rw [hsucc.ctl]
    split
    · exact hcons.markSeeded
    · exact hcons
  exact s1.finish.inv_iff.mpr ⟨hparams ▸ hsucc.fits hfits, hcons1.finish, hsucc.prngClear hprng⟩

theorem State.Inv.fails {s : State} {e : ErrorCode} (h : s.Inv) (he : e ≠ .invariant) :
    (s.raiseError e).finish.Inv := by
  obtain ⟨hfits, -, hprng⟩ := s.inv_iff.mp h
  exact (State.inv_iff _).mpr ⟨hfits, .recordError_finish s.ctl he, hprng⟩

theorem State.Inv.storeInside {s : State} {a n : Nat} (h : s.Inv) (hin : a + n ≤ s.params.bufSize) (v : Word64) :
    (s.setBuf (s.buf.store a n v)).Inv := by
  obtain ⟨hfits, hcons, hprng⟩ := s.inv_iff.mp h
  exact (State.inv_iff _).mpr ⟨hfits.store hin v, hcons, hprng⟩

/-- Settles O51: the state after reset is one of those that a reset event leaves. -/
theorem resetMeetsTheInvariant : Obligations.ResetMeetsTheInvariant :=
  State.inv_resetWith _ _ _ _

/-- Settles O52, by the cases of a step. -/
theorem stepKeepsTheInvariant : Obligations.StepKeepsTheInvariant := by
  intro s t hinv h
  cases step_cases h with
  | unchanged hsame => exact hinv.of_sameCore hsame
  | registerWrite r v _ _ _ hsame => exact (hinv.writeReg r v).of_sameCore hsame
  | bufferWrite a n v _ _ hin hsame => exact (hinv.storeInside hin v).of_sameCore hsame
  | success i s1 _ _ _ hsucc ht =>
    have hpop : s.popMover.Inv := hinv.of_sameCore ⟨rfl, rfl, rfl, rfl⟩
    exact ht ▸ hpop.succeeds hsucc
  | failure e _ _ he hsame => exact (hinv.fails he).of_sameCore hsame
  | reset _ ht => exact ht ▸ State.inv_resetWith _ _ _ _

end Sys2Proof.Machine
end

section
/-! The register window: what a host read of a register returns and what a host write of it does, for every register
and for each row of the register map (10_state.md R33 to R62). -/

namespace Sys2Proof.Machine

/-! ### Reads and writes of a named register -/

section RegisterWindow
variable (s : State) (r : RegName) (v : Word64)

theorem hostRead_offset : hostRead s r.offset 8 = .next (s.hostReadReg (some r)) := by
  simp only [hostRead, target_offset]

theorem hostWrite_offset : hostWrite s r.offset 8 v = s.hostWriteReg v (some r) := by
  simp only [hostWrite, target_offset]

variable {s r}

/-- A read is no draw unless the pending command writes the register (70_reset_and_hazards.md R311). -/
theorem hostRead_of_undrawn (h : (s.ctl.busy && s.pendingWritesReg r) = false) :
    hostRead s r.offset 8 = .next (s, s.readReg r) := by
  rw [hostRead_offset]
  simp only [State.hostReadReg, h, Bool.false_eq_true, if_false]

theorem hostRead_of_idle (hbusy : s.ctl.busy = false) : hostRead s r.offset 8 = .next (s, s.readReg r) :=
  hostRead_of_undrawn (by simp [hbusy])

/-- A register outside every write set is never drawn (30_encoding.md R118; 20_memory.md R96). -/
theorem hostRead_of_never_written (h : ∀ i, writesReg i r = false) :
    hostRead s r.offset 8 = .next (s, s.readReg r) := by
  have hpending : s.pendingWritesReg r = false := by
    unfold State.pendingWritesReg
    split
    · exact h _
    · rfl
  exact hostRead_of_undrawn (by simp [hpending])

/-- A write acts unless it is one of an operand register while BUSY = 1 (70_reset_and_hazards.md R310). -/
theorem hostWrite_of_admitted (h : (s.ctl.busy && r.isOperand) = false) :
    hostWrite s r.offset 8 v = .next (s.writeReg r v) := by
  rw [hostWrite_offset]
  simp only [State.hostWriteReg, h, Bool.false_eq_true, if_false]

theorem hostWrite_of_not_operand (h : r.isOperand = false) : hostWrite s r.offset 8 v = .next (s.writeReg r v) :=
  hostWrite_of_admitted v (by simp [h])

end RegisterWindow

/-- No command's write set holds ID, CFG, CTRL, STATUS or CMD (30_encoding.md R118). -/
theorem writesReg_eq_false_of_control {r : RegName} (h : r ∈ [RegName.id, .cfg, .ctrl, .status, .cmd]) (i : Instr) :
    writesReg i r = false := by
  simp only [List.mem_cons, List.not_mem_nil, or_false] at h
  rcases h with rfl | rfl | rfl | rfl | rfl <;> cases i <;> rfl

section ControlRegisters
variable (s : State) (v : Word64)

theorem hostRead_id : hostRead s 0x00 8 = .next (s, idWord) :=
  hostRead_of_never_written (r := .id) (writesReg_eq_false_of_control (by decide))

theorem hostRead_cfg : hostRead s 0x08 8 = .next (s, cfgWord s.params) :=
  hostRead_of_never_written (r := .cfg) (writesReg_eq_false_of_control (by decide))

theorem hostRead_ctrl : hostRead s 0x10 8 = .next (s, s.ctl.ctrlWord) :=
  hostRead_of_never_written (r := .ctrl) (writesReg_eq_false_of_control (by decide))

theorem hostRead_status : hostRead s 0x18 8 = .next (s, s.ctl.statusWord) :=
  hostRead_of_never_written (r := .status) (writesReg_eq_false_of_control (by decide))

theorem hostWrite_id : hostWrite s 0x00 8 v = .next s := hostWrite_of_not_operand (r := .id) v rfl

theorem hostWrite_cfg : hostWrite s 0x08 8 v = .next s := hostWrite_of_not_operand (r := .cfg) v rfl

theorem hostWrite_ctrl : hostWrite s 0x10 8 v = .next (s.setCtl (s.ctl.writeCtrl v)) :=
  hostWrite_of_not_operand (r := .ctrl) v rfl

theorem hostWrite_status : hostWrite s 0x18 8 v = .next (s.setCtl (s.ctl.writeStatus v)) :=
  hostWrite_of_not_operand (r := .status) v rfl

theorem hostWrite_cmd : hostWrite s 0x20 8 v = .next (s.setCtl (s.ctl.writeCmd v)) :=
  hostWrite_of_not_operand (r := .cmd) v rfl

end ControlRegisters

/-! ### ID and CFG -/

theorem Params.l64_lt (P : Params) : P.l64 < 2 ^ 8 := Nat.succ_lt_succ P.l64Pred.isLt

theorem Params.l32_lt (P : Params) : P.l32 < 2 ^ 8 := Nat.succ_lt_succ P.l32Pred.isLt

/-- The three fields of CFG do not overlap (10_state.md R34). -/
theorem cfgWord_toNat (P : Params) : (cfgWord P).toNat = 2 ^ 16 * P.bufSize + (2 ^ 8 * P.l32 + P.l64) := by
  have hl64 := Params.l64_lt P
  have hl32 := Params.l32_lt P
  have hbuf := Params.bufSize_le P
  have hlow : P.l64 ||| 2 ^ 8 * P.l32 = 2 ^ 8 * P.l32 + P.l64 := by
    rw [Nat.or_comm]
    exact (Nat.two_pow_add_eq_or_of_lt hl64 _).symm
  have hall : (2 ^ 8 * P.l32 + P.l64) ||| 2 ^ 16 * P.bufSize = 2 ^ 16 * P.bufSize + (2 ^ 8 * P.l32 + P.l64) := by
    rw [Nat.or_comm]
    exact (Nat.two_pow_add_eq_or_of_lt (by omega) _).symm
  have hfield : ∀ n k, 2 ^ k * n < 2 ^ 64 → (BitVec.ofNat 64 n <<< k).toNat = 2 ^ k * n := fun n k hn => by
    have hn' : n < 2 ^ 64 := lt_of_le_of_lt (Nat.le_mul_of_pos_left n (Nat.two_pow_pos k)) hn
    rw [BitVec.toNat_shiftLeft, BitVec.toNat_ofNat, Nat.mod_eq_of_lt hn', Nat.shiftLeft_eq, Nat.mul_comm,
      Nat.mod_eq_of_lt hn]
  rw [cfgWord, BitVec.toNat_or, BitVec.toNat_or, BitVec.toNat_ofNat, Nat.mod_eq_of_lt (by omega), hfield _ _ (by omega),
    hfield _ _ (by omega), hlow, hall]

theorem cfgWord_fields (P : Params) :
    ((cfgWord P).extractLsb' 0 8).toNat = P.l64 ∧ ((cfgWord P).extractLsb' 8 8).toNat = P.l32 ∧
      ((cfgWord P).extractLsb' 16 32).toNat = P.bufSize ∧ ((cfgWord P).extractLsb' 48 16).toNat = 0 := by
  have hl64 := Params.l64_lt P
  have hl32 := Params.l32_lt P
  have hbuf := Params.bufSize_le P
  simp only [BitVec.extractLsb'_toNat, Nat.shiftRight_eq_div_pow, cfgWord_toNat]
  omega

/-- Settles O12: ID is a constant, and CFG depends on the parameters alone, which no step changes. -/
theorem idAndCfgAreConstants : Obligations.IdAndCfgAreConstants := by
  intro s
  obtain ⟨hl64, hl32, hbuf, hzero⟩ := cfgWord_fields s.params
  refine ⟨hostRead_id s, hostWrite_id s, hostRead_cfg s, hostWrite_cfg s, hl64, hl32, hbuf,
    BitVec.eq_of_toNat_eq hzero, fun href => ?_, fun t h => ⟨rfl, ?_⟩⟩
  · have hparams : s.params = Params.ref := congrArg Variant.params href
    rw [State.readReg, hparams]
    rfl
  · exact congrArg (cfgWord ∘ Variant.params) (step_variant h)

/-! ### CTRL -/

theorem Control.ctrlWord_eq (c : Control) : c.ctrlWord = (BitVec.ofBool c.ie).setWidth 64 :=
  BitVec.shiftLeft_zero _

/-- Settles O13, with no case on BUSY: CTRL is in no write set and is no operand register. -/
theorem ctrlHoldsOnlyTheInterruptEnable : Obligations.CtrlHoldsOnlyTheInterruptEnable :=
  ⟨rfl, fun s v => ⟨hostWrite_ctrl s v, s.ctl.ctrlWord_eq ▸ hostRead_ctrl s, rfl⟩⟩

/-! ### STATUS -/

/-- A flag shifted to its place is set there and nowhere else. -/
theorem flagAt_getLsbD (b : Bool) (i j : Nat) (hj : j < 64) : (flagAt b i).getLsbD j = (b && decide (j = i)) := by
  simp only [flagAt, BitVec.getLsbD_shiftLeft, BitVec.getLsbD_setWidth, BitVec.getLsbD_ofBool]
  by_cases hji : j = i
  · simp [hji, hji ▸ hj]
  · by_cases hlt : j < i
    · simp [hlt, hji]
    · simp [hji, show ¬j - i = 0 by omega]

/-- STATUS bit by bit (10_state.md R36). -/
theorem Control.statusWord_getLsbD (c : Control) (j : Nat) (hj : j < 64) :
    c.statusWord.getLsbD j =
      (c.busy && decide (j = 0) || c.done && decide (j = 1) || c.err && decide (j = 2) || c.ovr && decide (j = 3) ||
        c.seeded && decide (j = 4) || !decide (j < 8) && c.errcode.getLsbD (j - 8)) := by
  simp only [Control.statusWord, BitVec.getLsbD_or, flagAt_getLsbD _ _ _ hj, BitVec.getLsbD_shiftLeft,
    BitVec.getLsbD_setWidth, decide_eq_true hj, decide_eq_true (show j - 8 < 64 by omega), Bool.true_and]

theorem Control.statusWord_flags (c : Control) :
    c.statusWord.getLsbD 0 = c.busy ∧ c.statusWord.getLsbD 1 = c.done ∧ c.statusWord.getLsbD 2 = c.err ∧
      c.statusWord.getLsbD 3 = c.ovr ∧ c.statusWord.getLsbD 4 = c.seeded := by
  refine ⟨?_, ?_, ?_, ?_, ?_⟩ <;> rw [c.statusWord_getLsbD _ (by decide)] <;> simp

/-- From bit 5 on STATUS holds ERRCODE at bit 8 and nothing else. -/
theorem Control.statusWord_getLsbD_high (c : Control) {j : Nat} (h : 5 ≤ j) (hj : j < 64) :
    c.statusWord.getLsbD j = (!decide (j < 8) && c.errcode.getLsbD (j - 8)) := by
  rw [c.statusWord_getLsbD j hj, decide_eq_false (show j ≠ 0 by omega), decide_eq_false (show j ≠ 1 by omega),
    decide_eq_false (show j ≠ 2 by omega), decide_eq_false (show j ≠ 3 by omega), decide_eq_false (show j ≠ 4 by omega)]
  simp

theorem Control.statusWord_fields (c : Control) :
    c.statusWord.extractLsb' 5 3 = 0 ∧ c.statusWord.extractLsb' 8 8 = c.errcode ∧
      c.statusWord.extractLsb' 16 48 = 0 := by
  refine ⟨?_, ?_, ?_⟩ <;> apply BitVec.eq_of_getLsbD_eq <;> intro i hi <;>
    rw [BitVec.getLsbD_extractLsb', decide_eq_true hi, c.statusWord_getLsbD_high (by omega) (by omega)]
  · simp [show 5 + i < 8 by omega]
  · simp
  · simp [BitVec.getLsbD_of_ge c.errcode (16 + i - 8) (by omega)]

/-- Settles O14: the read bit by bit, the write through `Control.writeStatus`. -/
theorem statusReadsItsFieldsAndClearsByWritingOne : Obligations.StatusReadsItsFieldsAndClearsByWritingOne := by
  refine ⟨rfl, fun s => ?_, fun s v => ⟨_, hostWrite_status s v, rfl, rfl, rfl, rfl, rfl⟩⟩
  obtain ⟨hbusy, hdone, herr, hovr, hseeded⟩ := s.ctl.statusWord_flags
  exact ⟨_, hostRead_status s, hbusy, hdone, herr, hovr, hseeded, s.ctl.statusWord_fields⟩

/-! ### The reserved offsets -/

theorem RegName.offset_le (r : RegName) : r.offset ≤ 0xA0 := by cases r <;> decide

theorem RegName.ofOffset_eq_none {o : Nat} (h : 0xA8 ≤ o) : RegName.ofOffset o = none := by
  cases hr : RegName.ofOffset o with
  | none => rfl
  | some r =>
    have hoffset := RegName.offset_of_ofOffset hr
    have hle := r.offset_le
    omega

/-- The register map has no gap below the reserved offsets (10_state.md R56). -/
theorem RegName.exists_offset_eq {o : Nat} (h : o < 0xA8) (ho : o % 8 = 0) : ∃ r : RegName, r.offset = o := by
  have hnamed : ∀ k : Fin 21, (RegName.ofOffset (8 * k.val)).isSome = true := by decide
  have hsome := hnamed ⟨o / 8, by omega⟩
  rw [show 8 * (o / 8) = o by omega] at hsome
  obtain ⟨r, hr⟩ := Option.isSome_iff_exists.mp hsome
  exact ⟨r, (RegName.offset_of_ofOffset hr).symm⟩

theorem target_reserved (P : Params) {o : Nat} (hlow : 0xA8 ≤ o) (hhigh : o ≤ 0xF8) (ho : o % 8 = 0) :
    target P o 8 = some (.register none) := by
  rw [target, if_pos (by omega), if_pos ⟨rfl, ho⟩, RegName.ofOffset_eq_none hlow]

/-- Settles O16: the register map is dense below 0xA8 and empty from there on. -/
theorem reservedOffsetsReadZeroAndIgnoreWrites : Obligations.ReservedOffsetsReadZeroAndIgnoreWrites := by
  refine ⟨fun o _ ho => ⟨?_, fun hlt => RegName.exists_offset_eq hlt ho⟩, fun s o v hlow hhigh ho => ⟨?_, ?_⟩⟩
  · rintro ⟨r, rfl⟩
    exact Nat.lt_of_le_of_lt r.offset_le (by decide)
  · simp only [hostRead, target_reserved s.params hlow hhigh ho, State.hostReadReg]
  · simp only [hostWrite, target_reserved s.params hlow hhigh ho, State.hostWriteReg]

/-! ### The operand registers -/

/-- An operand register reads back what was written; BT_LEN keeps the low 32 bits (10_state.md R54). -/
theorem State.readReg_writeReg_same (s : State) {r : RegName} (v : Word64) (hr : r.isOperand = true) :
    (s.writeReg r v).readReg r = if r = .btLen then v &&& 0xFFFFFFFF else v := by
  cases r
  case btLen =>
    have hlow : v.toNat % 2 ^ 32 % 2 ^ 64 = v.toNat &&& (2 ^ 32 - 1) := by
      rw [Nat.and_two_pow_sub_one_eq_mod]
      omega
    change (v.setWidth 32).setWidth 64 = v &&& 0xFFFFFFFF
    apply BitVec.eq_of_toNat_eq
    rw [BitVec.toNat_setWidth, BitVec.toNat_setWidth]
    exact hlow
  case id | cfg | ctrl | status | cmd | prngOut | prngX | prngY | prngAcc | prngCtr => cases hr
  all_goals rfl

theorem State.readReg_writeReg_other (s : State) {r q : RegName} (v : Word64) (hr : r.isOperand = true) (hq : q ≠ r) :
    (s.writeReg r v).readReg q = s.readReg q := by
  cases r
  case id | cfg | ctrl | status | cmd | prngOut | prngX | prngY | prngAcc | prngCtr => cases hr
  all_goals cases q <;> simp [State.writeReg, State.readReg] at hq ⊢

/-- A write of an operand register changes the operand and result registers alone. -/
theorem State.writeReg_operand_frame (s : State) {r : RegName} (v : Word64) (hr : r.isOperand = true) :
    s.writeReg r v = { s with regs := (s.writeReg r v).regs } := by
  cases r
  case id | cfg | ctrl | status | cmd | prngOut | prngX | prngY | prngAcc | prngCtr => cases hr
  all_goals rfl

/-- Settles O18, through the read after a write of the same register and of another one. -/
theorem operandRegistersStoreWhatIsWritten : Obligations.OperandRegistersStoreWhatIsWritten := by
  intro s r v hr hbusy
  have hframe := s.writeReg_operand_frame v hr
  have hidle : (s.writeReg r v).ctl.busy = false := by rw [hframe]; exact hbusy
  refine ⟨_, hostWrite_of_admitted v (by simp [hbusy]), ?_, fun q hq => s.readReg_writeReg_other v hr hq, hframe⟩
  rw [hostRead_of_idle hidle, s.readReg_writeReg_same v hr]

/-! ### The interrupt line -/

/-- The line after a completion, failed or not, is IE (60_exceptions.md R276). -/
theorem Control.irq_finish (c : Control) : c.finish.irq = c.ie := Bool.and_true _

theorem exec_irq {i : Instr} {s t : State} (h : exec i s = .next t) : t.ctl.irq = s.ctl.ie := by
  rcases exec_next h with ⟨s1, hsucc, rfl⟩ | ⟨e, -, rfl⟩
  · rw [State.finish_ctl, Control.irq_finish, hsucc.ctl]
    split <;> rfl
  · exact Control.irq_finish _

/-- The next state of an outcome that is known to be one. -/
theorem next_eq_of_eq {s t : State} {o : Host.Outcome State Fault Refusal} (ho : o = .next s) (h : o = .next t) :
    t = s := Host.Outcome.next.inj (h.symm.trans ho)

/-- Settles O23, one clause per event of R276. -/
theorem irqFollowsEnableAndDone : Obligations.IrqFollowsEnableAndDone := by
  refine ⟨rfl, fun s => Bool.and_eq_true_iff, fun s t v h hv => ?status, fun s t v h hv => ?ctrl,
    fun s t v h => ⟨fun hidle => ?accepted, fun hbusy => ?dropped⟩, fun i s t h => exec_irq h⟩
  case status =>
    rw [next_eq_of_eq (hostWrite_status s v) h]
    simp [Control.irq, hv]
  case ctrl =>
    rw [next_eq_of_eq (hostWrite_ctrl s v) h]
    exact Bool.and_eq_false_iff.mpr (.inl hv)
  case accepted =>
    rw [next_eq_of_eq (hostWrite_cmd s v) h, s.ctl.writeCmd_idle v hidle]
    simp [Control.irq]
  case dropped =>
    rw [next_eq_of_eq (hostWrite_cmd s v) h, s.ctl.writeCmd_busy v hbusy]
    rfl

end Sys2Proof.Machine
end

section
/-! The host's turn operation by operation (10_state.md R31, R32; 30_encoding.md R121, R122), and which steps change BUSY,
OVR, SEEDED and the PRNG words (10_state.md R37, R40, R41, R47, R48). -/

namespace Sys2Proof.Machine

/-! ### The host's turn -/

section HostTurn
variable {s : State} {o n : Nat} {v : Word64}

/-- No host write changes the host agent itself. -/
theorem hostWrite_host {t : State} (h : hostWrite s o n v = .next t) : t.host = s.host := by
  rcases hostWrite_next h with rfl | ⟨r, -, -, -, rfl⟩ | ⟨a, -, -, rfl⟩
  · rfl
  · exact s.writeReg_host r v
  · rfl

theorem hostRead_host {t : State} (h : hostRead s o n = .next (t, v)) : t.host = s.host := by
  rcases hostRead_next h with rfl | rfl <;> rfl

theorem hostStep_access {a : BusAccess} (h : s.host.program[s.host.pc]? = some (.access a)) :
    hostStep s = accessStep s a := by
  simp only [hostStep, h]

theorem hostStep_wait (h : s.host.program[s.host.pc]? = some .wait) : hostStep s = waitStep s := by
  simp only [hostStep, h]

theorem hostStep_done (h : s.host.program[s.host.pc]? = none) : hostStep s = .next s := by
  simp only [hostStep, h]

/-- The turn of `wait`: STATUS is read, and BUSY decides whether the host goes on (30_encoding.md R122). -/
theorem waitStep_eq (s : State) :
    waitStep s = .next (if s.ctl.busy then s.observe 0x18 8 s.ctl.statusWord
      else (s.observe 0x18 8 s.ctl.statusWord).hostAdvance) := by
  have hread : hostRead s (RegName.offset .status) 8 = .next (s, s.ctl.statusWord) := hostRead_status s
  obtain ⟨hbusy, -⟩ := s.ctl.statusWord_flags
  simp only [waitStep, hread, chain, hbusy]
  rfl

/-- An access that answers a next state moves the step index on and leaves the program. -/
theorem accessStep_host {t : State} {a : BusAccess} (h : accessStep s a = .next t) :
    t.host.pc = s.host.pc + 1 ∧ t.host.program = s.host.program := by
  cases a with
  | read o n =>
    obtain ⟨⟨u, w⟩, hu, ht⟩ := chain_next h
    cases ht
    simp [hostRead_host hu]
  | write o n v =>
    obtain ⟨u, hu, ht⟩ := chain_next h
    cases ht
    simp [hostWrite_host hu]

end HostTurn

/-- Settles O9, one clause per operation of a host program. -/
theorem hostStepAdvancesTheIndex : Obligations.HostStepAdvancesTheIndex := by
  refine ⟨fun s hm => ?turn, fun s t a hop h => ?index, fun s o n v hop => ?write, fun s o n hop => ?read,
    fun s hop => ?wait, fun s hop => hostStep_done hop⟩
  case turn =>
    simp only [step, hm]
    rfl
  case index =>
    rw [hostStep_access hop] at h
    exact accessStep_host h
  case write =>
    rw [hostStep_access hop]
    refine ⟨fun u hu => ⟨hostWrite_host hu, ?_⟩, fun f hf => ?_, fun q hq => ?_⟩
    · rw [← hostWrite_host hu]
      simp only [accessStep, hu, chain]
      rfl
    · simp only [accessStep, hf, chain]
    · simp only [accessStep, hq, chain]
  case read =>
    rw [hostStep_access hop]
    refine ⟨fun u w hu => ?_, fun f hf => ?_, fun q hq => ?_⟩
    · rw [← hostRead_host hu]
      simp only [accessStep, hu, chain]
      rfl
    · simp only [accessStep, hf, chain]
    · simp only [accessStep, hq, chain]
  case wait =>
    rw [hostStep_wait hop, waitStep_eq]
    refine ⟨_, rfl, ?_⟩
    split <;> exact ⟨rfl, rfl, rfl, rfl, rfl, rfl⟩

/-! ### SEEDED -/

/-- PRNG.SEED answers a next state with SEEDED set (10_state.md R41). -/
theorem exec_prngSeed_seeded {s t : State} (h : exec .prngSeed s = .next t) : t.ctl.seeded = true := by
  rw [next_eq_of_eq rfl h]
  rfl

/-- PRNG.NEXT before a seeding fails with NOT_SEEDED (60_exceptions.md R264). -/
theorem exec_prngNext_unseeded {s : State} (h : s.ctl.seeded = false) :
    exec .prngNext s = .next (s.failedWith 0x02) := by
  change execPrngNext s = _
  rw [execPrngNext, if_pos h]
  rfl

/-- Settles O53: of the cases of a step only a success of PRNG.SEED and a reset touch SEEDED. -/
theorem onlySeedingSetsSeeded : Obligations.OnlySeedingSetsSeeded := by
  refine ⟨rfl, fun s t h hne => ?_, fun s t h => exec_prngSeed_seeded h, fun s h => exec_prngNext_unseeded h⟩
  cases step_cases h with
  | unchanged hsame => exact absurd (congrArg Control.seeded hsame.ctl) hne
  | registerWrite r v _ _ _ hsame =>
    exact absurd ((congrArg Control.seeded hsame.ctl).trans (s.writeReg_seeded r v)) hne
  | bufferWrite a n v _ _ _ hsame => exact absurd (congrArg Control.seeded hsame.ctl) hne
  | success i s1 hm hbusy hdecode hsucc ht =>
    subst ht
    by_cases hi : i = .prngSeed
    · subst hi
      exact .inl ⟨by simp [hsucc.ctl], hm, hbusy, hdecode⟩
    · exact absurd (by simp [hsucc.ctl, hi]) hne
  | failure e _ _ _ hsame => exact absurd (congrArg Control.seeded hsame.ctl) hne
  | reset hm ht => exact .inr ⟨ht ▸ rfl, hm⟩

/-! ### BUSY -/

/-- After a CMD write a command is pending, whether it is the one written or not (60_exceptions.md R271). -/
@[simp] theorem Control.busy_writeCmd (c : Control) (v : Word64) : (c.writeCmd v).busy = true := by
  cases h : c.busy with
  | false => rw [c.writeCmd_idle v h, Control.latch_busy]
  | true => rw [c.writeCmd_busy v h, h]

/-- A host write changes BUSY only by the acceptance of a word written to CMD (10_state.md R37). -/
theorem State.writeReg_busy {s : State} {r : RegName} {v : Word64} (h : (s.writeReg r v).ctl.busy ≠ s.ctl.busy) :
    r = .cmd ∧ (s.writeReg r v).ctl = s.ctl.latch v := by
  rcases s.writeReg_ctl r v with hc | ⟨-, hc⟩ | ⟨-, hc⟩ | ⟨rfl, hc⟩ <;> rw [hc] at h
  · exact absurd rfl h
  · exact absurd rfl h
  · exact absurd rfl h
  · have hidle : s.ctl.busy = false := by simpa using h.symm
    exact ⟨rfl, by rw [hc, s.ctl.writeCmd_idle v hidle]⟩

/-- A command that answers a next state has completed (60_exceptions.md R272). -/
theorem exec_completes {i : Instr} {s t : State} (h : exec i s = .next t) : t.ctl.busy = false ∧ t.ctl.done = true := by
  rcases exec_next h with ⟨s1, -, rfl⟩ | ⟨e, -, rfl⟩ <;> exact ⟨rfl, rfl⟩

theorem engineStep_busy {s t : State} (h : engineStep s = .next t) : t.ctl.busy = false := by
  rcases engineStep_next h with ⟨hidle, rfl⟩ | ⟨-, i, -, hx⟩ | ⟨-, -, rfl⟩
  · exact hidle
  · exact (exec_completes hx).1
  · rfl

/-- Settles O54: only a write of CMD, an end of a command and a reset touch BUSY. -/
theorem onlyAcceptanceAndCompletionChangeBusy : Obligations.OnlyAcceptanceAndCompletionChangeBusy := by
  refine ⟨fun s t h hne => ?_, fun s v => ⟨_, hostWrite_cmd s v, Control.busy_writeCmd _ v⟩,
    fun s t h => engineStep_busy h⟩
  cases step_cases h with
  | unchanged hsame => exact absurd (congrArg Control.busy hsame.ctl) hne
  | registerWrite r v hm _ hop hsame =>
    rw [hsame.ctl] at hne ⊢
    obtain ⟨rfl, hlatch⟩ := State.writeReg_busy hne
    rw [hlatch]
    exact .inl ⟨rfl, hm, v, hop, rfl⟩
  | bufferWrite a n v _ _ _ hsame => exact absurd (congrArg Control.busy hsame.ctl) hne
  | success i s1 hm _ _ _ ht => exact .inr (ht ▸ ⟨rfl, .inl ⟨hm, rfl⟩⟩)
  | failure e hm _ _ hsame => exact .inr (hsame.ctl ▸ ⟨rfl, .inl ⟨hm, rfl⟩⟩)
  | reset hm ht => exact .inr ⟨ht ▸ rfl, .inr hm⟩

/-! ### OVR -/

/-- What a host write does to OVR: a CMD write while BUSY = 1 sets it, a STATUS write with bit 3 set clears it, and nothing
else touches it (10_state.md R40). -/
theorem State.writeReg_ovr (s : State) (r : RegName) (v : Word64) :
    (s.writeReg r v).ctl.ovr = s.ctl.ovr ∨ (r = .cmd ∧ s.ctl.busy = true ∧ (s.writeReg r v).ctl.ovr = true) ∨
      (r = .status ∧ v.getLsbD 3 = true ∧ (s.writeReg r v).ctl.ovr = false) := by
  rcases s.writeReg_ctl r v with hc | ⟨-, hc⟩ | ⟨rfl, hc⟩ | ⟨rfl, hc⟩ <;> rw [hc]
  · exact .inl rfl
  · exact .inl rfl
  · rw [Control.writeStatus_ovr]
    cases hv : v.getLsbD 3 with
    | false => exact .inl rfl
    | true => exact .inr (.inr ⟨rfl, rfl, rfl⟩)
  · cases hb : s.ctl.busy with
    | false => exact .inl (by rw [s.ctl.writeCmd_idle v hb, Control.latch_ovr])
    | true => exact .inr (.inl ⟨rfl, rfl, by rw [s.ctl.writeCmd_busy v hb]⟩)

/-- What a step does to OVR. -/
theorem step_ovr {s t : State} (h : step s = .next t) :
    t.ctl.ovr = s.ctl.ovr ∨
      (t.ctl.ovr = true ∧ s.nextMover = .host ∧ s.ctl.busy = true ∧
        ∃ v, s.host.program[s.host.pc]? = some (.access (.write 0x20 8 v))) ∨
      (t.ctl.ovr = false ∧ (s.nextMover = .reset ∨ (s.nextMover = .host ∧
        ∃ v, s.host.program[s.host.pc]? = some (.access (.write 0x18 8 v)) ∧ v.getLsbD 3 = true))) := by
  cases step_cases h with
  | unchanged hsame => exact .inl (congrArg Control.ovr hsame.ctl)
  | registerWrite r v hm _ hop hsame =>
    rw [hsame.ctl]
    rcases s.writeReg_ovr r v with ho | ⟨rfl, hbusy, ho⟩ | ⟨rfl, hv, ho⟩
    · exact .inl ho
    · exact .inr (.inl ⟨ho, hm, hbusy, v, hop⟩)
    · exact .inr (.inr ⟨ho, .inr ⟨hm, v, hop, hv⟩⟩)
  | bufferWrite a n v _ _ _ hsame => exact .inl (congrArg Control.ovr hsame.ctl)
  | success i s1 _ _ _ hsucc ht =>
    subst ht
    rw [State.finish_ctl, Control.finish_ovr, hsucc.ctl]
    split <;> exact .inl rfl
  | failure e _ _ _ hsame => exact .inl (hsame.ctl ▸ rfl)
  | reset hm ht => exact .inr (.inr ⟨ht ▸ rfl, .inl hm⟩)

/-- Settles O55, from what a step does to OVR. -/
theorem overrunIsSticky : Obligations.OverrunIsSticky := by
  refine ⟨fun s t h => ⟨fun hclear hset => ?sets, fun hset hclear => ?clears⟩, fun s v hbusy => ?overrun,
    fun s t v hv h => ?acknowledged⟩
  case sets =>
    rcases step_ovr h with hsame | ⟨-, hcmd⟩ | ⟨hfalse, -⟩
    · exact absurd (hset.symm.trans (hsame.trans hclear)) (by decide)
    · exact hcmd
    · exact absurd (hset.symm.trans hfalse) (by decide)
  case clears =>
    rcases step_ovr h with hsame | ⟨htrue, -⟩ | ⟨-, hcause⟩
    · exact absurd (hset.symm.trans (hsame.symm.trans hclear)) (by decide)
    · exact absurd (htrue.symm.trans hclear) (by decide)
    · exact hcause
  case overrun =>
    rw [hostWrite_cmd, s.ctl.writeCmd_busy v hbusy]
    rfl
  case acknowledged =>
    rw [next_eq_of_eq (hostWrite_status s v) h, State.setCtl_ctl, Control.writeStatus_ovr, if_pos hv]

/-! ### The PRNG words -/

/-- Settles O56: the PRNG words are read-only to the host, and the other commands leave them. -/
theorem onlyPrngCommandsChangeThePrngWords : Obligations.OnlyPrngCommandsChangeThePrngWords := by
  intro s t h hne
  cases step_cases h with
  | unchanged hsame => exact absurd (congrArg Registers.prng hsame.regs) hne
  | registerWrite r v _ _ _ hsame =>
    exact absurd ((congrArg Registers.prng hsame.regs).trans (s.writeReg_prng r v)) hne
  | bufferWrite a n v _ _ _ hsame => exact absurd (congrArg Registers.prng hsame.regs) hne
  | success i s1 hm hbusy hdecode hsucc ht =>
    refine .inr ⟨hm, hbusy, ?_⟩
    by_contra hother
    rw [hdecode] at hother
    obtain ⟨hwords, -⟩ := hsucc.prng_eq (fun hi => hother (.inl (by rw [hi]))) (fun hi => hother (.inr (by rw [hi])))
    exact hne (ht ▸ hwords)
  | failure e _ _ _ hsame => exact absurd (congrArg Registers.prng hsame.regs) hne
  | reset hm _ => exact .inl hm

end Sys2Proof.Machine
end

section
/-! Which host accesses the two windows admit, and the accesses that change nothing (20_memory.md R83 to R85, R90). -/

namespace Sys2Proof.Machine

/-! ### Accesses without effect -/

/-- A host write of a RO register changes nothing, busy or not (20_memory.md R90; 70_reset_and_hazards.md R310). -/
theorem hostWrite_of_readOnly (s : State) {r : RegName} (v : Word64)
    (h : r ∈ [RegName.id, .cfg, .prngOut, .prngX, .prngY, .prngAcc, .prngCtr]) :
    hostWrite s r.offset 8 v = .next s := by
  simp only [List.mem_cons, List.not_mem_nil, or_false] at h
  rcases h with rfl | rfl | rfl | rfl | rfl | rfl | rfl <;> exact hostWrite_of_not_operand v rfl

/-- Settles O17: a read that answers leaves the state or takes a draw, and no RO register is an operand register. -/
theorem readsAndReadOnlyWritesHaveNoEffect : Obligations.ReadsAndReadOnlyWritesHaveNoEffect := by
  refine ⟨fun s t o n v h => ?_, fun s r v hr => hostWrite_of_readOnly s v hr⟩
  rcases hostRead_next h with rfl | rfl <;> rfl

/-! ### The admitted accesses -/

/-- The offset decides: in the register window it is R83 of 20_memory.md that admits, in the buffer window R84, and the gap
between them admits nothing. -/
theorem target_eq_none_iff {P : Params} {o n : Nat} : target P o n = none ↔
    ¬ ((o < 0x100 ∧ n = 8 ∧ o % 8 = 0) ∨
      (0x10000 ≤ o ∧ (n = 1 ∨ n = 2 ∨ n = 4 ∨ n = 8) ∧ (o - 0x10000) % n = 0 ∧ (o - 0x10000) + n ≤ P.bufSize)) := by
  by_cases hreg : o < 0x100
  · have hbuf : ¬ 0x10000 ≤ o := by omega
    simp [target, hreg, hbuf]
  · by_cases hbuf : 0x10000 ≤ o <;> simp [target, hreg, hbuf]

/-- A read that reaches the buffer answers or faults, busy or not (60_exceptions.md R286; 70_reset_and_hazards.md R311). -/
theorem State.hostReadBuf_ne_refused (s : State) (a n : Nat) (q : Refusal) : s.hostReadBuf a n ≠ .refused q := by
  unfold State.hostReadBuf
  split
  · simp
  · split <;> simp

theorem State.hostWriteReg_ne_busError (s : State) (v : Word64) (r : Option RegName) :
    s.hostWriteReg v r ≠ .refused .busError := by
  unfold State.hostWriteReg
  split
  · simp
  · split <;> simp

theorem State.hostWriteBuf_ne_busError (s : State) (a n : Nat) (v : Word64) :
    s.hostWriteBuf a n v ≠ .refused .busError := by
  unfold State.hostWriteBuf
  split <;> simp

/-- A read is a bus error exactly when the access has no target (20_memory.md R85). -/
theorem hostRead_eq_busError_iff {s : State} {o n : Nat} :
    hostRead s o n = .refused .busError ↔ target s.params o n = none := by
  unfold hostRead
  split
  · next h => simp [h]
  · next h => simp [h]
  · next h => simp [h, State.hostReadBuf_ne_refused]

/-- A write is a bus error exactly when the access has no target (20_memory.md R85). -/
theorem hostWrite_eq_busError_iff {s : State} {o n : Nat} {v : Word64} :
    hostWrite s o n v = .refused .busError ↔ target s.params o n = none := by
  unfold hostWrite
  split
  · next h => simp [h]
  · next h => simp [h, State.hostWriteReg_ne_busError]
  · next h => simp [h, State.hostWriteBuf_ne_busError]

/-- Settles O19: to be admitted is to have a target, and that alone decides whether an access is a bus error. -/
theorem unadmittedAccessesAreBusErrors : Obligations.UnadmittedAccessesAreBusErrors := by
  intro s o n v admitted
  have htarget : target s.params o n = none ↔ ¬ admitted := target_eq_none_iff
  refine ⟨fun hout => ⟨?_, ?_⟩, fun hin => ⟨fun hread => ?_, fun hwrite => ?_⟩⟩
  · exact hostRead_eq_busError_iff.mpr (htarget.mpr hout)
  · exact hostWrite_eq_busError_iff.mpr (htarget.mpr hout)
  · exact htarget.mp (hostRead_eq_busError_iff.mp hread) hin
  · exact htarget.mp (hostWrite_eq_busError_iff.mp hwrite) hin

end Sys2Proof.Machine
end

section
/-! Command words (30_encoding.md R110 to R120): decoding undoes encoding, every other word completes with
ILLEGAL_COMMAND, and the assembler reads the mnemonics. -/

namespace Sys2Proof.Machine

/-! ### From a command to its word -/

/-- Settles O2: the round trip of each command. -/
theorem everyCommandRoundTrips : Obligations.EveryCommandRoundTrips := by
  intro i
  cases i with
  | nop => exact Laws.RoundTrip.nop
  | prngSeed => exact Laws.RoundTrip.prngSeed
  | prngNext => exact Laws.RoundTrip.prngNext
  | bcEnc => exact Laws.RoundTrip.bcEnc
  | bcDec => exact Laws.RoundTrip.bcDec
  | btPad => exact Laws.RoundTrip.btPad
  | btUnpad => exact Laws.RoundTrip.btUnpad
  | btEnc => exact Laws.RoundTrip.btEnc
  | btDec => exact Laws.RoundTrip.btDec
  | keyWipe => exact Laws.RoundTrip.keyWipe
  | bufWipe => exact Laws.RoundTrip.bufWipe

@[simp] theorem decode_encode (i : Instr) : decode (encode i) = .ok i := by
  obtain ⟨-, -, hdecode⟩ := everyCommandRoundTrips i
  exact hdecode

/-- Settles O1: each word of R114 is the encoding of its command. -/
theorem decodesTheElevenCommandWords : Obligations.DecodesTheElevenCommandWords :=
  ⟨decode_encode .nop, decode_encode .prngSeed, decode_encode .prngNext, decode_encode .bcEnc, decode_encode .bcDec,
    decode_encode .btPad, decode_encode .btUnpad, decode_encode .btEnc, decode_encode .btDec, decode_encode .keyWipe,
    decode_encode .bufWipe⟩

/-! ### From a word to its command -/

/-- The two fields of R110 make up the word. -/
theorem rsvdField_append_opcField (v : Word64) : rsvdField v ++ opcField v = v := by
  apply BitVec.eq_of_getLsbD_eq
  intro i hi
  rw [rsvdField, opcField, BitVec.getLsbD_append, BitVec.getLsbD_extractLsb', BitVec.getLsbD_extractLsb']
  by_cases hlow : i < 8
  · simp [hlow]
  · simp [hlow, show i - 8 < 56 by omega, show 8 + (i - 8) = i by omega]

/-- Only its own opcode names a command (R114). -/
theorem opc_of_commandOfOpc {opc : Byte} {i : Instr} (h : commandOfOpc opc = some i) : opc = i.opc := by
  unfold commandOfOpc at h
  split at h <;> cases h
  all_goals next hopc => exact BitVec.eq_of_toNat_eq hopc

theorem decode_eq_reservedBits {v : Word64} (h : rsvdField v ≠ 0) : decode v = .error .reservedBits := by
  rw [decode, if_pos h]

theorem decode_eq_ok {v : Word64} {i : Instr} (h : decode v = .ok i) :
    rsvdField v = 0 ∧ commandOfOpc (opcField v) = some i := by
  unfold decode at h
  split at h
  · cases h
  · next hrsvd =>
    split at h
    · next hopc =>
      cases h
      exact ⟨not_not.mp hrsvd, hopc⟩
    · cases h

theorem decode_eq_ok_iff {v : Word64} {i : Instr} : decode v = .ok i ↔ v = encode i := by
  constructor
  · intro h
    obtain ⟨hrsvd, hopc⟩ := decode_eq_ok h
    calc v = rsvdField v ++ opcField v := (rsvdField_append_opcField v).symm
      _ = encode i := by rw [hrsvd, opc_of_commandOfOpc hopc, encode]
  · rintro rfl
    exact decode_encode i

theorem rsvdField_ne_zero {v : Word64} {b : Nat} (hlow : 8 ≤ b) (hhigh : b < 64) (hb : v.getLsbD b = true) :
    rsvdField v ≠ 0 := by
  intro hzero
  have hbit : (rsvdField v).getLsbD (b - 8) = true := by
    rw [rsvdField, BitVec.getLsbD_extractLsb', decide_eq_true (by omega), show 8 + (b - 8) = b by omega, hb]
    rfl
  rw [hzero] at hbit
  simp at hbit

/-- Settles O3: the opcode and the reserved bits determine the word, and a reserved bit alone makes it illegal. -/
theorem onlyItsOwnWordDecodesToACommand : Obligations.OnlyItsOwnWordDecodesToACommand :=
  ⟨fun _ _ => decode_eq_ok_iff,
    fun _ ⟨_, hlow, hhigh, hb⟩ => decode_eq_reservedBits (rsvdField_ne_zero hlow hhigh hb)⟩

/-! ### Illegal words -/

theorem decode_eq_error {v : Word64} (h : ∀ i, v ≠ encode i) : ∃ r, decode v = .error r := by
  cases hdecode : decode v with
  | ok i => exact absurd (decode_eq_ok_iff.mp hdecode) (h i)
  | error r => exact ⟨r, rfl⟩

/-- Settles O7: the word is latched like any other, and the engine finds no command in it. -/
theorem illegalWordsCompleteWithIllegalCommand : Obligations.IllegalWordsCompleteWithIllegalCommand := by
  intro s v hidle hillegal
  obtain ⟨r, hdecode⟩ := decode_eq_error hillegal
  have haccept : hostWrite s 0x20 8 v = .next (s.setCtl (s.ctl.latch v)) := by
    rw [hostWrite_cmd, s.ctl.writeCmd_idle v hidle]
  exact ⟨_, haccept, rfl, engineStep_illegal rfl hdecode⟩

/-! ### Mnemonics -/

/-- The search through R114 stops at the command that has the mnemonic: no other command has it. -/
theorem assemble_eq_some {text : List Char} {i : Instr} (h : text.map Char.toUpper = mnemonic i) :
    assemble text = some i := by
  rw [assemble, h]
  cases i <;> rfl

/-- Settles O4: the text names one command, and the mnemonics are those of R114. -/
theorem assemblerReadsMnemonicsInAnyCase : Obligations.AssemblerReadsMnemonicsInAnyCase := by
  refine ⟨fun i text h => ?_, rfl⟩
  rw [assemble_eq_some h, Option.map_some]

end Sys2Proof.Machine
end

section
/-! The write set of each command and the frame it leaves (30_encoding.md R118; 60_exceptions.md R262, R272). -/

namespace Sys2Proof.Machine

/-- Settles O57, row by row of the operand table. -/
theorem writeSetsAreThoseOfTheOperandTable : Obligations.WriteSetsAreThoseOfTheOperandTable := by
  refine ⟨fun i r => ?registers, fun s i a => ?bytes⟩
  case registers =>
    cases i with
    | nop | bcEnc | bcDec | btPad | btUnpad | btEnc | btDec | bufWipe => simp [writesReg]
    | prngSeed | prngNext | keyWipe => simp [writesReg, or_assoc]
  case bytes =>
    cases i with
    | btPad =>
      simp only [State.writesByte, Bool.and_eq_true, decide_eq_true_eq]
      simp [padLength]
    | btEnc | btDec | bufWipe => simp [State.writesByte]
    | nop | prngSeed | prngNext | bcEnc | bcDec | btUnpad | keyWipe => simp [State.writesByte]

/-! ### Registers outside the write set -/

section ReadReg
variable {s t : State} {r : RegName}

/-- What a read of a register other than STATUS can see. -/
theorem State.readReg_congr (hvariant : t.variant = s.variant) (hie : t.ctl.ie = s.ctl.ie) (hregs : t.regs = s.regs)
    (hr : r ≠ .status) : t.readReg r = s.readReg r := by
  cases r
  case status => exact absurd rfl hr
  case cfg => exact congrArg (cfgWord ∘ Variant.params) hvariant
  case ctrl => exact congrArg (flagAt · 0) hie
  all_goals simp only [State.readReg, hregs]

theorem State.readReg_setPrng (st : PrngState) (out : Word64)
    (hr : r ∉ [RegName.prngX, .prngY, .prngAcc, .prngCtr, .prngOut]) : (s.setPrng st out).readReg r = s.readReg r := by
  cases r
  case prngX | prngY | prngAcc | prngCtr | prngOut => simp at hr
  all_goals rfl

theorem State.readReg_setBcData (v : Word64) (hr : r ≠ .bcData) : (s.setBcData v).readReg r = s.readReg r := by
  cases r
  case bcData => exact absurd rfl hr
  all_goals rfl

theorem State.readReg_setBtLen (n : Nat) (hr : r ≠ .btLen) : (s.setBtLen n).readReg r = s.readReg r := by
  cases r
  case btLen => exact absurd rfl hr
  all_goals rfl

theorem State.readReg_setBuf (m : Memory) : (s.setBuf m).readReg r = s.readReg r := by cases r <;> rfl

end ReadReg

/-- The registers outside its write set keep their values when a command succeeds (R118). -/
theorem Succeeds.readReg_eq {i : Instr} {s s1 : State} {r : RegName} (h : Succeeds i s s1) (hr : r ≠ .status)
    (hwrites : writesReg i r = false) : s1.readReg r = s.readReg r := by
  cases i with
  | nop => cases h; rfl
  | prngSeed =>
    cases h
    calc ((s.setPrng _ 0).setCtl s.ctl.markSeeded).readReg r = (s.setPrng _ 0).readReg r :=
          State.readReg_congr rfl rfl rfl hr
      _ = s.readReg r := State.readReg_setPrng _ _ (by simpa [writesReg, and_assoc] using hwrites)
  | prngNext =>
    obtain ⟨-, rfl⟩ := h
    exact State.readReg_setPrng _ _ (by simpa [writesReg, and_assoc] using hwrites)
  | bcEnc | bcDec =>
    cases h
    exact State.readReg_setBcData _ (by simpa [writesReg] using hwrites)
  | btPad =>
    obtain ⟨-, rfl⟩ := h
    exact (State.readReg_setBtLen _ (by simpa [writesReg] using hwrites)).trans (State.readReg_setBuf _)
  | btUnpad =>
    obtain ⟨-, b, -, -, -, -, -, rfl⟩ := h
    exact State.readReg_setBtLen _ (by simpa [writesReg] using hwrites)
  | btEnc | btDec =>
    obtain ⟨-, -, m, -, rfl⟩ := h
    exact State.readReg_setBuf m
  | keyWipe =>
    cases h
    cases r
    case bcKey | bcNonce | btNonce | btSk0 | btSk1 | btSk2 | btSk3 => cases hwrites
    all_goals rfl
  | bufWipe =>
    cases h
    cases r
    case btLen | bcData => cases hwrites
    all_goals rfl

/-! ### Buffer bytes outside the write set -/

theorem Memory.byteAt_eq_none {m : Memory} {a : Nat} (h : ∀ c ∈ m, c.1 ≠ a) : m.byteAt a = none := by
  induction m with
  | nil => rfl
  | cons c m ih =>
    rw [byteAt, if_neg (h c List.mem_cons_self)]
    exact ih fun d hd => h d (List.mem_cons_of_mem c hd)

theorem Memory.Fits.byteAt_eq_none {size a : Nat} {m : Memory} (h : m.Fits size) (ha : size ≤ a) : m.byteAt a = none :=
  Memory.byteAt_eq_none fun c hc => by have := h.inside c hc; omega

/-- The buffer bytes outside its write set keep their values when a command succeeds (R118); BUF.WIPE empties what lies
outside the buffer, so that it needs the buffer to fit. -/
theorem Succeeds.byteAt_eq {i : Instr} {s s1 : State} {a : Nat} (h : Succeeds i s s1)
    (hfits : s.buf.Fits s.params.bufSize) (hwrites : s.writesByte i a = false) : s1.buf.byteAt a = s.buf.byteAt a := by
  cases i with
  | nop | prngSeed | bcEnc | bcDec | keyWipe => cases h; rfl
  | prngNext => obtain ⟨-, rfl⟩ := h; rfl
  | btUnpad => obtain ⟨-, b, -, -, -, -, -, rfl⟩ := h; rfl
  | btPad =>
    obtain ⟨-, rfl⟩ := h
    have hout : ¬ (s.len ≤ a ∧ a < s.len + padLength s.len) := by simpa [State.writesByte] using hwrites
    exact (Memory.byteAt_fill ..).trans (if_neg hout)
  | btEnc | btDec =>
    obtain ⟨-, hmod, m, hm, rfl⟩ := h
    have hout : s.len ≤ a := by simpa [State.writesByte] using hwrites
    exact Memory.mapBlocks_outside hm (by omega)
  | bufWipe =>
    cases h
    have hout : s.params.bufSize ≤ a := by simpa [State.writesByte] using hwrites
    rw [hfits.byteAt_eq_none hout]
    exact (Memory.byteAt_zeros ..).trans (if_neg (by omega))

/-! ### The frame -/

theorem Succeeds.frameOf {i : Instr} {s s1 : State} (h : Succeeds i s s1) (hfits : s.buf.Fits s.params.bufSize) :
    FrameOf i s s1.finish := by
  obtain ⟨hvariant, hhost, hschedule, hdraws, -⟩ := h.frame
  refine ⟨fun r hr hwrites => ?_, fun a hwrites => h.byteAt_eq hfits hwrites, hvariant, hhost, hschedule, hdraws⟩
  calc s1.finish.readReg r = s1.readReg r := State.readReg_congr rfl rfl rfl hr
    _ = s.readReg r := h.readReg_eq hr hwrites

/-- An error changes nothing but STATUS (60_exceptions.md R262). -/
theorem frameOf_raiseError (i : Instr) (s : State) (e : ErrorCode) : FrameOf i s (s.raiseError e).finish :=
  ⟨fun _ hr _ => State.readReg_congr rfl rfl rfl hr, fun _ _ => rfl, rfl, rfl, rfl, rfl⟩

theorem exec_frameOf {i : Instr} {s t : State} (hinv : s.Inv) (h : exec i s = .next t) : FrameOf i s t := by
  obtain ⟨hfits, -⟩ := s.inv_iff.mp hinv
  rcases exec_next h with ⟨s1, hsucc, rfl⟩ | ⟨e, -, rfl⟩
  · exact hsucc.frameOf hfits
  · exact frameOf_raiseError i s e

/-- The flags no command touches, SEEDED apart from PRNG.SEED (10_state.md R35, R40, R41, R57). -/
theorem exec_flags {i : Instr} {s t : State} (h : exec i s = .next t) :
    t.ctl.ie = s.ctl.ie ∧ t.ctl.ovr = s.ctl.ovr ∧ t.ctl.pending = s.ctl.pending ∧
      (i ≠ .prngSeed → t.ctl.seeded = s.ctl.seeded) := by
  rcases exec_next h with ⟨s1, hsucc, rfl⟩ | ⟨e, -, rfl⟩
  · rw [State.finish_ctl, hsucc.ctl]
    by_cases hi : i = .prngSeed
    · rw [if_pos hi]
      exact ⟨rfl, rfl, rfl, fun hne => absurd hi hne⟩
    · rw [if_neg hi]
      exact ⟨rfl, rfl, rfl, fun _ => rfl⟩
  · exact ⟨rfl, rfl, rfl, fun _ => rfl⟩

/-- Settles O38: the frame, the flags and the completion of `exec`. -/
theorem commandsChangeOnlyTheirWriteSet : Obligations.CommandsChangeOnlyTheirWriteSet := by
  intro i s t hinv h
  obtain ⟨hie, hovr, hpending, hseeded⟩ := exec_flags h
  exact ⟨exec_frameOf hinv h, hie, hovr, hpending, hseeded, exec_completes h⟩

end Sys2Proof.Machine
end

section
/-! The PRNG unit (40_prng.md): what PRNG.SEED and PRNG.NEXT leave, the outputs of a stream, and the independence of the
other commands from the unit. -/

namespace Sys2Proof.Machine

/-! ### The functions Seed and Next -/

/-- The table of R141 indexed as a list, as the statements write it. -/
theorem getD_rc64_eq_rc64At (P : Params) (i : Word64) : P.rc64.toList[i.toNat % P.l64]?.getD 0 = rc64At P i := by
  have hlt : i.toNat % P.l64 < P.rc64.toList.length := by
    rw [Vector.length_toList]
    exact Nat.mod_lt _ (Nat.succ_pos _)
  rw [List.getElem?_eq_getElem hlt, Option.getD_some, Vector.getElem_toList]
  rfl

theorem seedStream_words (P : Params) (seed : Word64) :
    ((seedStream P seed).x, (seedStream P seed).y, (seedStream P seed).acc) =
      P.initWords seed (seed ^^^ P.warmUp seed) := rfl

theorem nextWord_words (P : Params) (st : PrngState) (tweak : Word64) :
    ((nextWord P st tweak).1.x, (nextWord P st tweak).1.y, (nextWord P st tweak).1.acc, (nextWord P st tweak).2) =
      P.prngCore st tweak (rc64At P tweak) (rc64At P (st.ctr + tweak)) (rc64At P st.acc) := rfl

/-- The counter goes up by 1 modulo 2^64 (R147). -/
theorem nextWord_ctr (P : Params) (st : PrngState) (tweak : Word64) :
    (nextWord P st tweak).1.ctr = BitVec.ofNat 64 ((st.ctr.toNat + 1) % 2 ^ 64) := by
  apply BitVec.eq_of_toNat_eq
  change (st.ctr + 1).toNat = _
  simp [BitVec.toNat_add]

/-- The output words of `Next` from `st` under a sequence of tweaks (R150). -/
def streamOutputs (P : Params) : PrngState → List Word64 → List Word64
  | _, [] => []
  | st, w :: ws => (nextWord P st w).2 :: streamOutputs P (nextWord P st w).1 ws

/-! ### The commands -/

/-- The state PRNG.SEED completes in (R148). -/
def State.seeding (s : State) : State :=
  ((s.setPrng (seedStream s.params s.regs.prngSeed) 0).setCtl s.ctl.markSeeded).finish

/-- The state a seeded PRNG.NEXT completes in (R149). -/
def State.advancing (s : State) : State :=
  let r := nextWord s.params s.regs.prng s.regs.prngTweak
  (s.setPrng r.1 r.2).finish

theorem exec_prngSeed (s : State) : exec .prngSeed s = .next s.seeding := rfl

theorem exec_prngNext_seeded {s : State} (h : s.ctl.seeded = true) : exec .prngNext s = .next s.advancing := by
  change execPrngNext s = _
  rw [execPrngNext, if_neg (by simp [h])]
  rfl

/-- A success that leaves the buffer bytes outside the write set has the frame of its command; unlike
`Succeeds.frameOf` it asks nothing of the state before. -/
theorem Succeeds.frameOf_of_bytes {i : Instr} {s s1 : State} (h : Succeeds i s s1)
    (hbytes : ∀ a, s.writesByte i a = false → s1.buf.byteAt a = s.buf.byteAt a) : FrameOf i s s1.finish := by
  obtain ⟨hvariant, hhost, hschedule, hdraws, -⟩ := h.frame
  refine ⟨fun r hr hwrites => ?_, hbytes, hvariant, hhost, hschedule, hdraws⟩
  calc s1.finish.readReg r = s1.readReg r := State.readReg_congr rfl rfl rfl hr
    _ = s.readReg r := h.readReg_eq hr hwrites

theorem State.frameOf_seeding (s : State) : FrameOf .prngSeed s s.seeding :=
  Succeeds.frameOf_of_bytes rfl fun _ _ => rfl

theorem State.frameOf_advancing {s : State} (h : s.ctl.seeded = true) : FrameOf .prngNext s s.advancing :=
  Succeeds.frameOf_of_bytes ⟨h, rfl⟩ fun _ _ => rfl

/-- Settles O25: the seeded state is `Seed(PRNG_SEED)` with PRNG_OUT cleared and SEEDED set. -/
theorem prngSeedLoadsTheSeededState : Obligations.PrngSeedLoadsTheSeededState :=
  ⟨decode_encode .prngSeed, fun s =>
    ⟨s.seeding, exec_prngSeed s, seedStream_words s.params s.regs.prngSeed, rfl, rfl, rfl, s.frameOf_seeding⟩⟩

/-- Settles O26: a seeded PRNG.NEXT is one call of `Next`, and an unseeded one fails. -/
theorem prngNextAdvancesTheStream : Obligations.PrngNextAdvancesTheStream := by
  refine ⟨decode_encode .prngNext, fun s hseeded => ?_, fun s h => exec_prngNext_unseeded h⟩
  refine ⟨s.advancing, exec_prngNext_seeded hseeded, ⟨?words, ?counter⟩, rfl, State.frameOf_advancing hseeded⟩
  case words =>
    simp only [getD_rc64_eq_rc64At]
    exact nextWord_words s.params s.regs.prng s.regs.prngTweak
  case counter => exact nextWord_ctr s.params s.regs.prng s.regs.prngTweak

/-! ### The outputs after a seeding -/

theorem prngOutputs_cons {s : State} (h : s.ctl.seeded = true) (w : Word64) (ws : List Word64) :
    prngOutputs s (w :: ws) = (prngOutputs (s.writeReg .prngTweak w).advancing ws).map
      ((nextWord s.params s.regs.prng w).2 :: ·) := by
  have hexec := exec_prngNext_seeded (s := s.writeReg .prngTweak w) h
  rw [State.writeReg, State.setRegs] at hexec
  rw [prngOutputs, hexec]
  rfl

/-- Once seeded, the outputs are those of the stream in the PRNG words, and every command completes. -/
theorem prngOutputs_eq_streamOutputs {s : State} (h : s.ctl.seeded = true) (ws : List Word64) :
    prngOutputs s ws = some (streamOutputs s.params s.regs.prng ws) := by
  induction ws generalizing s with
  | nil => rfl
  | cons w ws ih =>
    rw [prngOutputs_cons h, ih (s := (s.writeReg .prngTweak w).advancing) h]
    rfl

/-- Settles O27: both runs give the outputs of the stream seeded with PRNG_SEED. -/
theorem seedAndTweaksDetermineTheOutputs : Obligations.SeedAndTweaksDetermineTheOutputs := by
  intro s s' t t' ws hvariant hseed h h'
  have houtputs : ∀ u : State,
      prngOutputs u.seeding ws = some (streamOutputs u.params (seedStream u.params (u.readReg .prngSeed)) ws) :=
    fun u => prngOutputs_eq_streamOutputs rfl ws
  have hparams : s.params = s'.params := congrArg Variant.params hvariant
  rw [next_eq_of_eq (exec_prngSeed s) h, next_eq_of_eq (exec_prngSeed s') h', houtputs s, houtputs s', hparams, hseed]
  exact ⟨rfl, rfl⟩

/-! ### The other commands and the PRNG unit -/

theorem chain_ite {α β : Type} (c : Prop) [Decidable c] (o o' : Host.Outcome α Fault Refusal)
    (f : α → Host.Outcome β Fault Refusal) : chain (if c then o else o') f = if c then chain o f else chain o' f := by
  split <;> rfl

/-- `f` on the state an execution succeeded in. -/
def Executed.map (f : State → State) : Executed → Executed
  | .ok s => .ok (f s)
  | .error e => .error e
  | .stuck q => .stuck q

theorem Executed.map_ite (f : State → State) (c : Prop) [Decidable c] (r r' : Executed) :
    (if c then r else r').map f = if c then r.map f else r'.map f := by
  split <;> rfl

section OtherUnit
variable (s : State) (st : PrngState) (out : Word64) (seeded : Bool)

theorem withPrngUnit_len : (withPrngUnit s st out seeded).len = s.len := rfl
theorem withPrngUnit_buf : (withPrngUnit s st out seeded).buf = s.buf := rfl

/-- Completion commutes with a change of the PRNG unit. -/
theorem complete_withPrngUnit (r : Executed) :
    complete (withPrngUnit s st out seeded) (r.map (withPrngUnit · st out seeded)) =
      chain (complete s r) (fun t => .next (withPrngUnit t st out seeded)) := by
  cases r <;> rfl

/-- The loop and its checks see the parameters, the length and the buffer alone. -/
theorem runTransform_withPrngUnit (f : Word64 → Word64) :
    runTransform (withPrngUnit s st out seeded) f = (runTransform s f).map (withPrngUnit · st out seeded) := by
  simp only [runTransform, Executed.map_ite, withPrngUnit_len, withPrngUnit_buf]
  cases s.buf.mapBlocks f (s.len / 8) 0 <;> rfl

/-- The checks of BT.PAD see the parameters and the length alone, and each branch commutes by computation. -/
theorem execBtPad_withPrngUnit :
    execBtPad (withPrngUnit s st out seeded) =
      chain (execBtPad s) (fun t => .next (withPrngUnit t st out seeded)) := by
  simp only [execBtPad, chain_ite]
  rfl

/-- The checks of BT.UNPAD see the parameters, the length and the buffer alone, and each branch commutes by computation. -/
theorem execBtUnpad_withPrngUnit :
    execBtUnpad (withPrngUnit s st out seeded) =
      chain (execBtUnpad s) (fun t => .next (withPrngUnit t st out seeded)) := by
  simp only [execBtUnpad, chain_ite, withPrngUnit_len, withPrngUnit_buf]
  cases s.buf.byteAt (s.len - 1) with
  | none => rfl
  | some b =>
    simp only [chain_ite]
    rfl

/-- A command other than PRNG.SEED and PRNG.NEXT commutes with a change of the PRNG unit. -/
theorem exec_withPrngUnit {i : Instr} (hseed : i ≠ .prngSeed) (hnext : i ≠ .prngNext) :
    exec i (withPrngUnit s st out seeded) = chain (exec i s) (fun t => .next (withPrngUnit t st out seeded)) := by
  cases i with
  | prngSeed => exact absurd rfl hseed
  | prngNext => exact absurd rfl hnext
  | nop | bcEnc | bcDec | keyWipe | bufWipe => rfl
  | btPad => exact execBtPad_withPrngUnit s st out seeded
  | btUnpad => exact execBtUnpad_withPrngUnit s st out seeded
  | btEnc | btDec =>
    rw [exec, exec]
    exact (congrArg _ (runTransform_withPrngUnit ..)).trans (complete_withPrngUnit ..)

end OtherUnit

/-- A command other than PRNG.SEED and PRNG.NEXT leaves the PRNG words and PRNG_OUT. -/
theorem exec_prng_eq {i : Instr} {s t : State} (h : exec i s = .next t) (hseed : i ≠ .prngSeed) (hnext : i ≠ .prngNext) :
    t.regs.prng = s.regs.prng ∧ t.regs.prngOut = s.regs.prngOut := by
  rcases exec_next h with ⟨s1, hsucc, rfl⟩ | ⟨e, -, rfl⟩
  · exact hsucc.prng_eq hseed hnext
  · exact ⟨rfl, rfl⟩

/-- Settles O28: the six commands are among those that leave the PRNG unit and commute with a change of it. -/
theorem cipherCommandsIgnoreThePrngUnit : Obligations.CipherCommandsIgnoreThePrngUnit := by
  intro i hi s t h
  have hseed : i ≠ .prngSeed := by rintro rfl; simp at hi
  have hnext : i ≠ .prngNext := by rintro rfl; simp at hi
  obtain ⟨hwords, hout⟩ := exec_prng_eq h hseed hnext
  obtain ⟨-, -, -, hseeded⟩ := exec_flags h
  refine ⟨hwords, hout, hseeded hseed, fun st out seeded => ?_⟩
  rw [exec_withPrngUnit s st out seeded hseed hnext, h]
  rfl

end Sys2Proof.Machine
end

section
/-! The round of the block cipher (41_block_cipher.md R173 to R183): each layer is undone by its backward form, and so is
the round. -/

namespace Sys2Proof.Machine

/-! ### The ARX layer -/

/-- The two columns of the table of R174 are inverse to each other. -/
@[simp] theorem ArxStep.inverse_forward (c : Word32) (h : Word32 × Word32) (x : ArxStep) :
    ArxStep.inverse c (ArxStep.forward c h x) x = h := by
  obtain ⟨a, b⟩ := h
  have hrotate : ∀ (v : Word32) (n : RotAmount), rotr32 (rotl32 v n.val) n.val = v := fun v n =>
    rotr32_rotl32 v n.val (by have := n.property; omega)
  cases x with
  | xb | xa | cxa | cxb => simp only [forward, inverse, xor_cancel_right]
  | ab | aa | caa | cab => simp only [forward, inverse, add_sub_cancel_right]
  | ra n | rb n => simp only [forward, inverse, hrotate]

@[simp] theorem arxF_nil (c : Word32) (h : Word32 × Word32) : arxF [] c h = h := rfl
@[simp] theorem arxB_nil (c : Word32) (h : Word32 × Word32) : arxB [] c h = h := rfl

theorem arxF_cons (x : ArxStep) (seq : List ArxStep) (c : Word32) (h : Word32 × Word32) :
    arxF (x :: seq) c h = arxF seq c (ArxStep.forward c h x) := rfl

theorem arxB_cons (x : ArxStep) (seq : List ArxStep) (c : Word32) (h : Word32 × Word32) :
    arxB (x :: seq) c h = ArxStep.inverse c (arxB seq c h) x := rfl

@[simp] theorem arxB_arxF (seq : List ArxStep) (c : Word32) (h : Word32 × Word32) : arxB seq c (arxF seq c h) = h := by
  induction seq generalizing h with
  | nil => rfl
  | cons x seq ih => rw [arxF_cons, arxB_cons, ih, ArxStep.inverse_forward]

/-- Settles O58: the table by computation, the order by the recursion of the folds, the inverse by induction on the steps. -/
theorem arxStepsFollowTheirTable : Obligations.ArxStepsFollowTheirTable := by
  refine ⟨fun c a b n => ?table, fun c h => ⟨arxF_nil c h, arxB_nil c h⟩,
    fun x seq c h => ⟨arxF_cons x seq c h, arxB_cons x seq c h⟩, fun seq c a b => arxB_arxF seq c (a, b)⟩
  case table => refine ⟨?_, ?_, ?_, ?_, ?_, ?_, ?_, ?_, ?_, ?_, ?_, ?_, ?_, ?_, ?_, ?_, ?_, ?_, ?_, ?_⟩ <;> rfl

/-! ### The other layers -/

@[simp] theorem mixB_mixF (choice : Mixing) (v subkey : Word64) (rotB : Fin 64) :
    mixB choice (mixF choice v subkey rotB) subkey rotB = v := by
  cases choice with
  | xorSubkey => simp only [mixF, mixB, xor_cancel_right]
  | complementXorSubkey => simp only [mixF, mixB, ← BitVec.not_xor_left, BitVec.not_not, xor_cancel_right]
  | rotateLeft => exact rotr64_rotl64 v rotB.val rotB.isLt
  | rotateRight => exact rotl64_rotr64 v rotB.val rotB.isLt

@[simp] theorem flip_flip (v : Word64) (rotA : Fin 64) : flip (flip v rotA) rotA = v := xor_cancel_right ..

@[simp] theorem keyMixB_keyMixF (v key subkey : Word64) : keyMixB (keyMixF v key subkey) key subkey = v := by
  have hrotate : ∀ w : Word64, rotl64 (rotr64 w 16) 16 = w := fun w => rotl64_rotr64 w 16 (by decide)
  simp only [keyMixF, keyMixB, xor_cancel_right, hrotate, add_sub_cancel_right]

/-- Settles O43: one inverse law per layer. -/
theorem roundLayersAreInvertible : Obligations.RoundLayersAreInvertible :=
  ⟨fun seq c a b => arxB_arxF seq c (a, b), mixB_mixF, flip_flip, keyMixB_keyMixF⟩

/-! ### The round -/

/-- RoundB takes the layers off in the reverse of the order in which RoundF puts them on (R183). -/
@[simp] theorem roundB_roundF (P : Params) (v key : Word64) (k : KeyState) : roundB P (roundF P v key k) key k = v := by
  simp only [roundB, roundF, keyMixB_keyMixF, flip_flip, mixB_mixF, split_join, Prod.mk.eta, arxB_arxF, join_split]

/-- Settles O44, layer by layer. -/
theorem backwardRoundUndoesForwardRound : Obligations.BackwardRoundUndoesForwardRound := roundB_roundF

/-- The table of R173 indexed as a list, as the statements write it. -/
theorem getD_rc32_eq_rc32At (P : Params) (i : Word64) : P.rc32.toList[i.toNat % P.l32]?.getD 0 = rc32At P i := by
  have hlt : i.toNat % P.l32 < P.rc32.toList.length := by
    rw [Vector.length_toList]
    exact Nat.mod_lt _ (Nat.succ_pos _)
  rw [List.getElem?_eq_getElem hlt, Option.getD_some, Vector.getElem_toList]
  rfl

/-- Settles O59: the constant is that of the table, and the rest is computation for each of the four mixing functions. -/
theorem roundsComposeTheirLayers : Obligations.RoundsComposeTheirLayers := by
  refine ⟨fun P v key k => ?forward, fun P v key k => ?backward⟩
  all_goals
    rw [getD_rc32_eq_rc32At]
    obtain ⟨subkey, choice, rotA, rotB, rci⟩ := k
    cases choice <;> rfl

end Sys2Proof.Machine
end

section
/-! The key schedule (41_block_cipher.md R171, R172): the calls of its one stream counted from 0, and each KeyState as
KS_MAP of the words of its round's calls. -/

namespace Sys2Proof.Machine

/-- A call of `Next` is one step of the PRNG as R146 writes it out. -/
theorem nextIs_nextWord (P : Params) (st : PrngState) (tweak : Word64) :
    NextIs P st tweak (nextWord P st tweak).1 (nextWord P st tweak).2 := by
  refine ⟨?words, nextWord_ctr P st tweak⟩
  simp only [getD_rc64_eq_rc64At]
  exact nextWord_words P st tweak

/-! ### The counted stream -/

/-- The tweak of call number `i` of the schedule's stream: that of the call `i mod NKS` of the round `i / NKS`. -/
def scheduleTweak (P : Params) (i : Nat) : Word64 := P.ksTweak (Fin.ofNat 8 (i / P.nks)) (i % P.nks)

/-- The state of the schedule's stream before call number `i`. -/
def scheduleState (P : Params) (seed : Word64) : Nat → PrngState
  | 0 => seedStream P seed
  | i + 1 => (nextWord P (scheduleState P seed i) (scheduleTweak P i)).1

/-- The word that call number `i` of the schedule's stream gives. -/
def scheduleWord (P : Params) (seed : Word64) (i : Nat) : Word64 :=
  (nextWord P (scheduleState P seed i) (scheduleTweak P i)).2

/-- The KeyState of round `r`: KS_MAP of the words of the calls `r * NKS` to `r * NKS + NKS - 1`. -/
def roundKeyState (P : Params) (seed : Word64) (r : Fin 8) : KeyState :=
  P.ksMap r (Vector.ofFn fun j : Fin (P.nksPred + 1) => scheduleWord P seed (r.val * P.nks + j.val))

theorem scheduleTweak_call (P : Params) (r : Fin 8) {j : Nat} (hj : j < P.nks) :
    scheduleTweak P (r.val * P.nks + j) = P.ksTweak r j := by
  have hdiv : (r.val * P.nks + j) / P.nks = r.val := by
    rw [Nat.mul_comm, Nat.mul_add_div (by omega), Nat.div_eq_of_lt hj, Nat.add_zero]
  have hmod : (r.val * P.nks + j) % P.nks = j := by
    rw [Nat.mul_comm, Nat.mul_add_mod, Nat.mod_eq_of_lt hj]
  rw [scheduleTweak, hdiv, hmod, Fin.ofNat_val_eq_self]

/-- A run of `n` calls from call number `i` on, with the tweaks of those calls, is that piece of the counted stream. -/
theorem drawWords_scheduleState (P : Params) (seed : Word64) {tweak : Nat → Word64} {i n : Nat}
    (htweak : ∀ j, j < n → tweak j = scheduleTweak P (i + j)) :
    drawWords P tweak n (scheduleState P seed i) =
      (scheduleState P seed (i + n), Vector.ofFn fun j : Fin n => scheduleWord P seed (i + j.val)) := by
  induction n with
  | zero => rfl
  | succ n ih =>
    rw [drawWords, ih fun j hj => htweak j (by omega), htweak n (by omega), Vector.ofFn_succ]
    rfl

/-- From the first call of round `k` on, consecutive rounds have their own KeyStates. -/
theorem keyStates_scheduleState (P : Params) (seed : Word64) {rs : List (Fin 8)} {k : Nat}
    (hrs : rs.map Fin.val = List.range' k rs.length) :
    keyStates P rs (scheduleState P seed (k * P.nks)) = rs.map (roundKeyState P seed) := by
  induction rs generalizing k with
  | nil => rfl
  | cons r rs ih =>
    rw [List.map_cons, List.length_cons, List.range'_succ, List.cons.injEq] at hrs
    obtain ⟨rfl, hrest⟩ := hrs
    have hdraw := drawWords_scheduleState P seed (n := P.nksPred + 1) fun j hj => (scheduleTweak_call P r hj).symm
    have hnext : r.val * P.nks + (P.nksPred + 1) = (r.val + 1) * P.nks := (Nat.succ_mul ..).symm
    rw [hnext] at hdraw
    rw [keyStates, hdraw, List.map_cons, ← ih hrest]
    rfl

/-- The schedule, round by round (R171). -/
theorem deriveSchedule_eq (P : Params) (key nonce : Word64) :
    deriveSchedule P key nonce = allRounds.map (roundKeyState P (key ^^^ nonce)) := by
  have h := keyStates_scheduleState P (key ^^^ nonce) (rs := allRounds) (k := 0) (by decide)
  rwa [Nat.zero_mul] at h

theorem getElem?_allRounds (r : Fin 8) : allRounds[r.val]? = some r := by decide +revert

/-- Settles O42: the stream and the words are the counted ones, and the seed is all that key and nonce give. -/
theorem scheduleHasEightRoundsAndNeedsOnlyTheXor : Obligations.ScheduleHasEightRoundsAndNeedsOnlyTheXor := by
  constructor
  · intro P k n
    rw [deriveSchedule_eq]
    refine ⟨List.length_map _, scheduleState P (k ^^^ n), scheduleWord P (k ^^^ n), ⟨seedStream_words P _, rfl⟩,
      fun r j hj => ?next, fun r => ?entry⟩
    case next =>
      rw [← scheduleTweak_call P r hj]
      exact nextIs_nextWord P _ _
    case entry =>
      rw [List.getElem?_map, getElem?_allRounds]
      rfl
  · intro P k n k' n' hxor
    rw [deriveSchedule, deriveSchedule, hxor]

end Sys2Proof.Machine
end

section
/-! The block functions (41_block_cipher.md R184 to R186) and the commands BC.ENC and BC.DEC (R188, R189). -/

namespace Sys2Proof.Machine

/-! ### The block functions -/

/-- Settles O60: the folds over the eight KeyStates of the schedule, unrolled. -/
theorem blockFunctionsRunEightRounds : Obligations.BlockFunctionsRunEightRounds := by
  intro P key nonce
  have hschedule := deriveSchedule_eq P key nonce
  refine ⟨_, _, _, _, _, _, _, _, hschedule, fun data => ⟨?encrypt, ?decrypt⟩⟩
  case encrypt => rw [encryptBlock, hschedule]; rfl
  case decrypt => rw [decryptBlock, hschedule]; rfl

/-- The backward rounds, last to first, undo the forward rounds on any list of KeyStates. -/
theorem foldr_roundB_foldl_roundF (P : Params) (key data : Word64) (ks : List KeyState) :
    ks.foldr (fun k v => roundB P v key k) (ks.foldl (fun v k => roundF P v key k) data) = data := by
  induction ks generalizing data with
  | nil => rfl
  | cons k ks ih => rw [List.foldl_cons, List.foldr_cons, ih, roundB_roundF]

@[simp] theorem decryptBlock_encryptBlock (P : Params) (data key nonce : Word64) :
    decryptBlock P (encryptBlock P data key nonce) key nonce = data := foldr_roundB_foldl_roundF P key data _

/-- Encryption has a left inverse, and the words are finitely many. -/
theorem encryptBlock_bijective (P : Params) (key nonce : Word64) :
    Function.Bijective fun data => encryptBlock P data key nonce := by
  have hinverse : Function.LeftInverse (decryptBlock P · key nonce) (encryptBlock P · key nonce) :=
    fun data => decryptBlock_encryptBlock P data key nonce
  exact Finite.injective_iff_bijective.mp hinverse.injective

/-- Settles O45: the inverse law by induction on the schedule, and the bijection by counting. -/
theorem decryptBlockInvertsEncryptBlock : Obligations.DecryptBlockInvertsEncryptBlock := fun P key nonce =>
  ⟨fun data => decryptBlock_encryptBlock P data key nonce, encryptBlock_bijective P key nonce⟩

/-! ### The commands -/

/-- The state BC.ENC completes in (R188). -/
def State.encrypting (s : State) : State :=
  (s.setBcData (encryptBlock s.params s.regs.bcData s.regs.bcKey s.regs.bcNonce)).finish

/-- The state BC.DEC completes in (R189). -/
def State.decrypting (s : State) : State :=
  (s.setBcData (decryptBlock s.params s.regs.bcData s.regs.bcKey s.regs.bcNonce)).finish

theorem exec_bcEnc (s : State) : exec .bcEnc s = .next s.encrypting := rfl
theorem exec_bcDec (s : State) : exec .bcDec s = .next s.decrypting := rfl

theorem State.frameOf_encrypting (s : State) : FrameOf .bcEnc s s.encrypting :=
  Succeeds.frameOf_of_bytes rfl fun _ _ => rfl

theorem State.frameOf_decrypting (s : State) : FrameOf .bcDec s s.decrypting :=
  Succeeds.frameOf_of_bytes rfl fun _ _ => rfl

/-- Decryption under the key and nonce that encryption left in place restores the block. -/
theorem State.bcData_decrypting_encrypting (s : State) : s.encrypting.decrypting.regs.bcData = s.regs.bcData :=
  decryptBlock_encryptBlock s.params s.regs.bcData s.regs.bcKey s.regs.bcNonce

/-- Settles O29: the state BC.ENC completes in, its flags and its frame. -/
theorem bcEncEncryptsTheBlock : Obligations.BcEncEncryptsTheBlock :=
  ⟨decode_encode .bcEnc, fun s => ⟨s.encrypting, exec_bcEnc s, rfl, rfl, s.frameOf_encrypting⟩⟩

/-- Settles O30: the state BC.DEC completes in, its flags and its frame, and the block inverse law of R186 on registers. -/
theorem bcDecDecryptsTheBlock : Obligations.BcDecDecryptsTheBlock := by
  refine ⟨decode_encode .bcDec, fun s => ⟨s.decrypting, exec_bcDec s, rfl, rfl, s.frameOf_decrypting⟩, ?restore⟩
  intro s t u henc hdec
  rw [next_eq_of_eq (exec_bcEnc s) henc] at hdec
  rw [next_eq_of_eq (exec_bcDec _) hdec]
  exact s.bcData_decrypting_encrypting

end Sys2Proof.Machine
end

section
/-! Byte strings and blocks of the BT unit (42_block_transform.md section 1): what `Unpad` accepts, the cascade and its
inverse, and the round trip. -/

namespace Sys2Proof.Machine

/-! ### Padding -/

theorem padLength_toNat (n : Nat) : (BitVec.ofNat 8 (padLength n)).toNat = padLength n := by
  have := padLength_le n
  exact Nat.mod_eq_of_lt (by omega)

theorem getElem?_pad {d : List Byte} {k : Nat} (hlow : d.length ≤ k) (hk : k < (pad d).length) :
    (pad d)[k]? = some (BitVec.ofNat 8 (padLength d.length)) := by
  rw [pad_length] at hk
  rw [pad, List.getElem?_append_right hlow, List.getElem?_replicate_of_lt (by omega)]

theorem all_drop_beq_iff (t : List Byte) (n : Nat) (b : Byte) :
    (t.drop n).all (fun x => x == b) = true ↔ ∀ k, n ≤ k → k < t.length → t[k]? = some b := by
  simp only [List.all_eq_true, beq_iff_eq, List.mem_drop_iff_getElem, List.getElem?_eq_some_iff]
  constructor
  · intro h k hn hk
    exact ⟨hk, h _ ⟨k - n, by omega, by simp [hn]⟩⟩
  · rintro h x ⟨k, hk, rfl⟩
    obtain ⟨_, hb⟩ := h (n + k) (by omega) (by omega)
    exact hb

/-- What `Unpad` accepts and what it returns (R211). -/
theorem unpad_eq_some_iff {t d : List Byte} :
    unpad t = some d ↔ ∃ b : Byte, t[t.length - 1]? = some b ∧ 1 ≤ b.toNat ∧ b.toNat ≤ 8 ∧ b.toNat ≤ t.length ∧
      (∀ k, t.length - b.toNat ≤ k → k < t.length → t[k]? = some b) ∧ t.take (t.length - b.toNat) = d := by
  rw [unpad, List.getLast?_eq_getElem?]
  cases hlast : t[t.length - 1]? with
  | none => simp
  | some b =>
    have hchecks : ¬ (b.toNat = 0 ∨ 8 < b.toNat ∨ t.length < b.toNat) ↔
        1 ≤ b.toNat ∧ b.toNat ≤ 8 ∧ b.toNat ≤ t.length := by omega
    simp only [Option.some.injEq, exists_eq_left', Option.ite_none_left_eq_some, Option.ite_none_right_eq_some,
      all_drop_beq_iff, hchecks, and_assoc]

theorem length_pad_mod (d : List Byte) : (pad d).length % 8 = 0 := by
  rw [pad_length]
  exact add_padLength_mod d.length

/-- The last byte of `Pad d` is the number of the pad bytes, which `Unpad` takes off. -/
@[simp] theorem unpad_pad (d : List Byte) : unpad (pad d) = some d := by
  have hlen := pad_length d
  have hpos := padLength_pos d.length
  rw [unpad_eq_some_iff]
  refine ⟨BitVec.ofNat 8 (padLength d.length), getElem?_pad (by omega) (by omega), ?_⟩
  rw [padLength_toNat]
  refine ⟨hpos, padLength_le d.length, by omega, fun k hlow hk => getElem?_pad (by omega) hk, ?_⟩
  rw [hlen, Nat.add_sub_cancel]
  exact List.take_left' rfl

/-- Settles O46: the string `Pad d`, its length, and `Unpad` of it. -/
theorem unpadInvertsPad : Obligations.UnpadInvertsPad := by
  intro d
  have hlen := pad_length d
  have hpos := padLength_pos d.length
  have hle := padLength_le d.length
  exact ⟨rfl, length_pad_mod d, by omega, by omega, unpad_pad d⟩

/-- A checked byte that differs from the last byte makes `Unpad` fail, whatever the last byte is (R211). -/
theorem unpad_eq_none_of_ne_last {t : List Byte} {b : Byte} {k : Nat} (hlast : t[t.length - 1]? = some b)
    (hlow : t.length - b.toNat ≤ k) (hk : k < t.length) (hne : t[k]? ≠ some b) : unpad t = none := by
  refine Option.eq_none_iff_forall_ne_some.mpr fun d hd => hne ?_
  obtain ⟨c, hc, -, -, -, hall, -⟩ := unpad_eq_some_iff.mp hd
  obtain rfl : b = c := Option.some.inj (hlast.symm.trans hc)
  exact hall k hlow hk

theorem unpad_eq_none_of_large_last {t : List Byte} {b : Byte} (hlast : t[t.length - 1]? = some b)
    (hb : 8 < b.toNat) : unpad t = none := by
  refine Option.eq_none_iff_forall_ne_some.mpr fun d hd => ?_
  obtain ⟨c, hc, -, hle, -⟩ := unpad_eq_some_iff.mp hd
  obtain rfl : b = c := Option.some.inj (hlast.symm.trans hc)
  omega

/-- R232 (a): the last byte still says how many bytes are checked, and the changed one is among them. -/
theorem unpad_pad_set_eq_none {d : List Byte} {k : Nat} {q : Byte} (hlow : d.length ≤ k) (hk : k + 1 < (pad d).length)
    (hq : (pad d)[k]? ≠ some q) : unpad ((pad d).set k q) = none := by
  have hlen := pad_length d
  have hlast : ((pad d).set k q)[((pad d).set k q).length - 1]? = some (BitVec.ofNat 8 (padLength d.length)) := by
    rw [List.length_set, List.getElem?_set_ne (by omega), getElem?_pad (by omega) (by omega)]
  have hset : ((pad d).set k q)[k]? = some q := List.getElem?_set_self (by omega)
  refine unpad_eq_none_of_ne_last hlast (k := k) ?_ ?_ ?_
  · rw [padLength_toNat, List.length_set]; omega
  · rw [List.length_set]; omega
  · rwa [hset, ← getElem?_pad hlow (by omega), ne_comm]

theorem xor_ones_ne : ∀ b : Byte, b ^^^ 0xFF ≠ b := by decide

/-- R232 (b) at the last byte: the complement of a number from 1 to 8 is above 8. -/
theorem lt_toNat_complement {p : Nat} (hp : p ≤ 8) : 8 < (BitVec.ofNat 8 p ^^^ 0xFF).toNat := by
  interval_cases p <;> decide

/-- Settles O47: the checked bytes are those the last byte counts, so a change is caught unless it changes the count. -/
theorem paddingRejectionLaw : Obligations.PaddingRejectionLaw := by
  refine ⟨fun d k q hlow hk hq => unpad_pad_set_eq_none hlow hk hq, fun d k b hlow hb => ?complement,
    fun d q hpos hle hlen hall => ?last, rfl, rfl⟩
  case complement =>
    obtain ⟨hk, -⟩ := List.getElem?_eq_some_iff.mp hb
    by_cases hlast : k + 1 < (pad d).length
    · refine unpad_pad_set_eq_none hlow hlast fun hsame => ?_
      exact xor_ones_ne b (Option.some.inj (hsame.symm.trans hb))
    · obtain rfl : b = BitVec.ofNat 8 (padLength d.length) := Option.some.inj (hb.symm.trans (getElem?_pad hlow hk))
      refine unpad_eq_none_of_large_last ?_ (lt_toNat_complement (padLength_le d.length))
      rw [List.length_set, show (pad d).length - 1 = k by omega, List.getElem?_set_self hk]
  case last =>
    rw [unpad_eq_some_iff, List.length_set]
    exact ⟨q, hall _ (by omega) (by omega), hpos, hle, hlen, hall, rfl⟩

/-! ### The cascade -/

/-- The nonce of a stage, as a sum of numbers modulo 2^64 (R213). -/
theorem stageNonce_eq (nonce : Word64) (i : Fin 4) :
    stageNonce nonce i = BitVec.ofNat 64 ((nonce.toNat + (i.val + 1)) % 2 ^ 64) :=
  BitVec.eq_of_toNat_eq (by simp [stageNonce, BitVec.toNat_add])

/-- Settles O48: the two folds over the four stages, unrolled. -/
theorem cascadeStagesUseCountedNonces : Obligations.CascadeStagesUseCountedNonces := by
  refine ⟨fun P sk nonce w => ⟨?forward, ?backward⟩, by decide⟩
  case forward => simp only [cascadeF, allStages, List.foldl_cons, List.foldl_nil, stageNonce_eq]; rfl
  case backward => simp only [cascadeB, allStages, List.foldr_cons, List.foldr_nil, stageNonce_eq]; rfl

/-- The backward stages, last to first, undo the forward stages (R215, 41_block_cipher.md R186). -/
@[simp] theorem cascadeB_cascadeF (P : Params) (sk : Fin 4 → Word64) (nonce w : Word64) :
    cascadeB P sk nonce (cascadeF P sk nonce w) = w := by
  simp only [cascadeB, cascadeF, allStages, List.foldl_cons, List.foldl_nil, List.foldr_cons, List.foldr_nil,
    decryptBlock_encryptBlock]

/-! ### Transforming a byte string -/

/-- A block function with a left inverse is undone block by block (R216). -/
theorem transformBlocks_transformBlocks {f g : Word64 → Word64} (hinv : Function.LeftInverse g f) {k : Nat}
    {t : List Byte} (hk : t.length = 8 * k) : transformBlocks g k (transformBlocks f k t) = t := by
  induction k generalizing t with
  | zero => exact (List.length_eq_zero_iff.mp hk).symm
  | succ k ih =>
    have hhead : (t.take 8).length = 8 := by rw [List.length_take]; omega
    have htail : (t.drop 8).length = 8 * k := by rw [List.length_drop]; omega
    have hword : ∀ v, fromLe (toLe 8 v) = v := fun v => fromLe_toLe 8 v v.isLt
    rw [transformBlocks, transformBlocks, List.take_left' (toLe_length ..), List.drop_left' (toLe_length ..), hword,
      hinv, toLe_fromLe 8 _ hhead le_rfl, ih htail, List.take_append_drop]

/-- `TransformDecrypt` undoes `TransformEncrypt` on whole blocks. -/
theorem transformDecrypt_transformEncrypt (P : Params) (sk : Fin 4 → Word64) (nonce : Word64) {t : List Byte}
    (ht : t.length % 8 = 0) : transformDecrypt P sk nonce (transformEncrypt P sk nonce t) = t := by
  have hblocks : t.length = 8 * (t.length / 8) := by omega
  rw [transformDecrypt, transformEncrypt, transform, transform, transformBlocks_length, ← hblocks]
  exact transformBlocks_transformBlocks (cascadeB_cascadeF P sk nonce) hblocks

/-- R230 on byte strings: a padded string has whole blocks only. -/
theorem unpad_transformDecrypt_transformEncrypt_pad (P : Params) (sk : Fin 4 → Word64) (nonce : Word64)
    (b : List Byte) : unpad (transformDecrypt P sk nonce (transformEncrypt P sk nonce (pad b))) = some b := by
  rw [transformDecrypt_transformEncrypt P sk nonce (length_pad_mod b), unpad_pad]

end Sys2Proof.Machine
end

section
/-! The commands BT.PAD and BT.UNPAD (42_block_transform.md R217, R218): the outcome of each of their checks. -/

namespace Sys2Proof.Machine

/-! ### Byte strings of the buffer -/

/-- A byte of the range that a byte string covers. -/
theorem Memory.byteAt_of_bytes {m : Memory} {n k : Nat} {t : List Byte} (h : m.bytes 0 n = some t) (hk : k < n) :
    m.byteAt k = t[k]? := by
  obtain ⟨hlen, hbytes⟩ := (bytes_eq_some_iff n m 0 t).mp h
  rw [List.getElem?_eq_getElem (by omega), ← hbytes k (by omega), Nat.zero_add]

/-- The first bytes of a byte string are those of a shorter range. -/
theorem Memory.bytes_take {m : Memory} {n k : Nat} {t : List Byte} (h : m.bytes 0 n = some t) (hk : k ≤ n) :
    m.bytes 0 k = some (t.take k) := by
  obtain ⟨j, rfl⟩ := Nat.exists_eq_add_of_le hk
  obtain ⟨hfirst, -⟩ := bytes_split h
  exact hfirst

theorem Memory.bytes_fill (m : Memory) (a n : Nat) (b : Byte) :
    (m.fill a n b).bytes a n = some (List.replicate n b) := by
  refine (bytes_eq_some_iff ..).mpr ⟨List.length_replicate, fun k hk => ?_⟩
  rw [List.length_replicate] at hk
  rw [byteAt_fill, if_pos (by omega), List.getElem_replicate]

/-- Filling the bytes after a string appends them to it. -/
theorem Memory.bytes_fill_append {m : Memory} {n : Nat} {d : List Byte} (h : m.bytes 0 n = some d) (k : Nat) (b : Byte) :
    (m.fill n k b).bytes 0 (n + k) = some (d ++ List.replicate k b) := by
  refine bytes_append ?_ (by rw [Nat.zero_add]; exact bytes_fill m n k b)
  rw [← h]
  exact bytes_congr _ _ fun x hx => (byteAt_fill ..).trans (if_neg (by omega))

/-- The last `p` of `n` bytes, counted from their first and by their offsets. -/
theorem forall_lt_sub_add_iff {P : Nat → Prop} {n p : Nat} (hp : p ≤ n) :
    (∀ k, k < p → P (n - p + k)) ↔ ∀ k, n - p ≤ k → k < n → P k := by
  constructor
  · intro h k hlow hk
    have := h (k - (n - p)) (by omega)
    rwa [Nat.add_sub_cancel' hlow] at this
  · intro h k hk
    exact h (n - p + k) (by omega) (by omega)

theorem Memory.hasBytes_sub_iff {n p : Nat} (hp : p ≤ n) (m : Memory) :
    m.hasBytes (n - p) p = true ↔ ∀ k, n - p ≤ k → k < n → (m.byteAt k).isSome = true := by
  rw [hasBytes_iff, forall_lt_sub_add_iff (P := fun k => (m.byteAt k).isSome = true) hp]

theorem Memory.allEqual_sub_iff {n p : Nat} (hp : p ≤ n) (m : Memory) (b : Byte) :
    m.allEqual (n - p) b p = true ↔ ∀ k, n - p ≤ k → k < n → m.byteAt k = some b := by
  rw [allEqual_iff, forall_lt_sub_add_iff (P := fun k => m.byteAt k = some b) hp]

/-! ### BT.PAD -/

section BtPad
variable {s : State}

/-- The state BT.PAD completes in (R217). -/
def State.padding (s : State) : State :=
  let p := padLength s.len
  ((s.setBuf (s.buf.fill s.len p (BitVec.ofNat 8 p))).setBtLen (s.len + p)).finish

theorem exec_btPad_of_lt (h : s.len < s.params.bufSize) : exec .btPad s = .next s.padding := by
  have hfits := (pad_fits_iff s.params s.len).mpr h
  change execBtPad s = _
  rw [execBtPad, if_neg (by omega), if_neg (by omega)]
  rfl

/-- At BUF_SIZE the pad does not fit, and above it the length is refused first, with the same error. -/
theorem exec_btPad_of_le (h : s.params.bufSize ≤ s.len) : exec .btPad s = .next (s.failedWith 0x05) := by
  have hfits := pad_fits_iff s.params s.len
  change execBtPad s = _
  rw [execBtPad, if_pos (show s.len + padLength s.len > _ by omega), ite_self]
  rfl

theorem State.len_padding (h : s.len < s.params.bufSize) : s.padding.len = s.len + padLength s.len := by
  have hfits := (pad_fits_iff s.params s.len).mpr h
  have hsize := Params.bufSize_le s.params
  exact Nat.mod_eq_of_lt (by omega)

theorem State.bytes_padding {d : List Byte} (h : s.len < s.params.bufSize) (hd : s.buf.bytes 0 s.len = some d) :
    s.padding.buf.bytes 0 s.padding.len = some (pad d) := by
  rw [State.len_padding h, pad, Memory.bytes_length hd]
  exact Memory.bytes_fill_append hd ..

theorem State.frameOf_padding (h : s.len < s.params.bufSize) : FrameOf .btPad s s.padding := by
  refine Succeeds.frameOf_of_bytes ⟨h, rfl⟩ fun a ha => ?_
  have hout : ¬ (s.len ≤ a ∧ a < s.len + padLength s.len) := by simpa [State.writesByte] using ha
  exact (Memory.byteAt_fill ..).trans (if_neg hout)

/-- Settles O31: the pad fits exactly below BUF_SIZE, and then it is filled in after the data. -/
theorem btPadAppendsThePad : Obligations.BtPadAppendsThePad := by
  refine ⟨decode_encode .btPad, fun s h => ?fits, fun s h => exec_btPad_of_le h⟩
  refine ⟨s.padding, exec_btPad_of_lt h, ⟨State.len_padding h, fun k hk => ?_⟩, fun d hd => State.bytes_padding h hd,
    rfl, State.frameOf_padding h⟩
  have hin : s.len ≤ s.len + k ∧ s.len + k < s.len + padLength s.len := ⟨by omega, Nat.add_lt_add_left hk _⟩
  exact (Memory.byteAt_fill ..).trans (if_pos hin)

end BtPad

/-! ### BT.UNPAD -/

section BtUnpad
variable {s : State} {b : Byte}

/-- The state BT.UNPAD completes in when it takes off `p` bytes (R218). -/
def State.unpadding (s : State) (p : Nat) : State := (s.setBtLen (s.len - p)).finish

theorem exec_btUnpad_of_lt (h : s.params.bufSize < s.len) : exec .btUnpad s = .next (s.failedWith 0x05) := by
  change execBtUnpad s = _
  rw [execBtUnpad, if_pos h]
  rfl

theorem exec_btUnpad_of_len_zero (h : s.len = 0) : exec .btUnpad s = .next (s.failedWith 0x03) := by
  change execBtUnpad s = _
  rw [execBtUnpad, if_neg (by omega), if_pos h]
  rfl

theorem exec_btUnpad_of_no_last (hlen : s.len ≤ s.params.bufSize) (hpos : 0 < s.len)
    (hlast : s.buf.byteAt (s.len - 1) = none) : exec .btUnpad s = .fault .unwrittenByte := by
  change execBtUnpad s = _
  rw [execBtUnpad, if_neg (by omega), if_neg (by omega), hlast]
  rfl

section LastByte
variable (hlen : s.len ≤ s.params.bufSize) (hpos : 0 < s.len) (hlast : s.buf.byteAt (s.len - 1) = some b)
include hlen hpos hlast

/-- The checks of R218 once the last byte has been read. -/
theorem exec_btUnpad_of_last : exec .btUnpad s =
    if b.toNat = 0 ∨ b.toNat > 8 ∨ b.toNat > s.len then .next (s.failedWith 0x03)
    else if s.buf.hasBytes (s.len - b.toNat) b.toNat = false then .fault .unwrittenByte
    else if s.buf.allEqual (s.len - b.toNat) b b.toNat = false then .next (s.failedWith 0x03)
    else .next (s.unpadding b.toNat) := by
  change execBtUnpad s = _
  rw [execBtUnpad, if_neg (by omega), if_neg (by omega), hlast]
  rfl

theorem exec_btUnpad_of_bad_last (hb : b.toNat = 0 ∨ 8 < b.toNat ∨ s.len < b.toNat) :
    exec .btUnpad s = .next (s.failedWith 0x03) := by
  rw [exec_btUnpad_of_last hlen hpos hlast, if_pos hb]

section PadRange
variable (h1 : 1 ≤ b.toNat) (h8 : b.toNat ≤ 8) (hn : b.toNat ≤ s.len)
include h1 h8 hn

theorem exec_btUnpad_of_unwritten {k : Nat} (hlow : s.len - b.toNat ≤ k) (hk : k < s.len)
    (hnone : s.buf.byteAt k = none) : exec .btUnpad s = .fault .unwrittenByte := by
  have hno : s.buf.hasBytes (s.len - b.toNat) b.toNat = false := by
    rw [← Bool.not_eq_true, Memory.hasBytes_sub_iff hn]
    intro hall
    simpa [hnone] using hall k hlow hk
  rw [exec_btUnpad_of_last hlen hpos hlast, if_neg (by omega), if_pos hno]

theorem exec_btUnpad_of_ne (hall : ∀ k, s.len - b.toNat ≤ k → k < s.len → (s.buf.byteAt k).isSome = true) {k : Nat}
    (hlow : s.len - b.toNat ≤ k) (hk : k < s.len) (hne : s.buf.byteAt k ≠ some b) :
    exec .btUnpad s = .next (s.failedWith 0x03) := by
  have hsome := (Memory.hasBytes_sub_iff hn s.buf).mpr hall
  have hno : s.buf.allEqual (s.len - b.toNat) b b.toNat = false := by
    rw [← Bool.not_eq_true, Memory.allEqual_sub_iff hn]
    exact fun hequal => hne (hequal k hlow hk)
  rw [exec_btUnpad_of_last hlen hpos hlast, if_neg (by omega), if_neg (by simp [hsome]), if_pos hno]

theorem exec_btUnpad_of_eq (hall : ∀ k, s.len - b.toNat ≤ k → k < s.len → s.buf.byteAt k = some b) :
    exec .btUnpad s = .next (s.unpadding b.toNat) := by
  have hsome := (Memory.hasBytes_sub_iff hn s.buf).mpr fun k hlow hk => by rw [hall k hlow hk]; rfl
  have hequal := (Memory.allEqual_sub_iff hn s.buf b).mpr hall
  rw [exec_btUnpad_of_last hlen hpos hlast, if_neg (by omega), if_neg (by simp [hsome]), if_neg (by simp [hequal])]

omit hpos in
theorem State.frameOf_unpadding (hall : ∀ k, s.len - b.toNat ≤ k → k < s.len → s.buf.byteAt k = some b) :
    FrameOf .btUnpad s (s.unpadding b.toNat) :=
  Succeeds.frameOf_of_bytes ⟨hlen, b, hlast, h1, h8, hn, (Memory.allEqual_sub_iff hn s.buf b).mpr hall, rfl⟩ fun _ _ => rfl

end PadRange
end LastByte

theorem State.len_unpadding (s : State) (p : Nat) : (s.unpadding p).len = s.len - p := by
  have hlt : s.len < 2 ^ 32 := s.regs.btLen.isLt
  exact Nat.mod_eq_of_lt (by omega)

/-! ### BT.UNPAD on byte strings -/

section Strings
variable {d d' : List Byte} (hlen : s.len ≤ s.params.bufSize) (hd : s.buf.bytes 0 s.len = some d)
include hlen hd

/-- The string that `Unpad` returns is what BT.UNPAD leaves below BT_LEN (R211, R218). -/
theorem exec_btUnpad_of_unpad_eq_some (h : unpad d = some d') :
    exec .btUnpad s = .next (s.unpadding (s.len - d'.length)) ∧
      (s.unpadding (s.len - d'.length)).buf.bytes 0 (s.unpadding (s.len - d'.length)).len = some d' := by
  obtain ⟨b, hlast, h1, h8, hn, hall, rfl⟩ := unpad_eq_some_iff.mp h
  rw [Memory.bytes_length hd] at hlast hn hall ⊢
  have hp : s.len - (d.take (s.len - b.toNat)).length = b.toNat := by
    rw [List.length_take, Memory.bytes_length hd]; omega
  rw [hp, State.len_unpadding]
  refine ⟨exec_btUnpad_of_eq hlen (by omega) ?_ h1 h8 hn fun k hlow hk => ?_, Memory.bytes_take hd (by omega)⟩
  · rw [Memory.byteAt_of_bytes hd (by omega), hlast]
  · rw [Memory.byteAt_of_bytes hd hk, hall k hlow hk]

/-- The checks of BT.UNPAD are those of `Unpad` (R211, R218). -/
theorem exec_btUnpad_of_unpad_eq_none (h : unpad d = none) : exec .btUnpad s = .next (s.failedWith 0x03) := by
  have hbyte : ∀ k, k < s.len → s.buf.byteAt k = d[k]? := fun k hk => Memory.byteAt_of_bytes hd hk
  have hdlen : d.length = s.len := Memory.bytes_length hd
  have hsome : ∀ k, k < s.len → (s.buf.byteAt k).isSome = true := fun k hk => by simp [hbyte k hk, hdlen, hk]
  by_cases hzero : s.len = 0
  · exact exec_btUnpad_of_len_zero hzero
  have hpos : 0 < s.len := Nat.pos_of_ne_zero hzero
  obtain ⟨b, hlast⟩ := Option.isSome_iff_exists.mp (hsome (s.len - 1) (by omega))
  by_cases hbad : b.toNat = 0 ∨ 8 < b.toNat ∨ s.len < b.toNat
  · exact exec_btUnpad_of_bad_last hlen hpos hlast hbad
  by_cases hequal : ∀ k, s.len - b.toNat ≤ k → k < s.len → s.buf.byteAt k = some b
  · have haccept : unpad d = some (d.take (s.len - b.toNat)) := by
      rw [unpad_eq_some_iff, hdlen]
      refine ⟨b, by rw [← hbyte _ (by omega), hlast], by omega, by omega, by omega, fun k hlow hk => ?_, rfl⟩
      rw [← hbyte k hk, hequal k hlow hk]
    rw [h] at haccept
    cases haccept
  · push Not at hequal
    obtain ⟨k, hlow, hk, hne⟩ := hequal
    exact exec_btUnpad_of_ne hlen hpos hlast (by omega) (by omega) (by omega) (fun k _ hk => hsome k hk) hlow hk hne

end Strings
end BtUnpad

/-- Settles O32: one outcome per check of R218, and the checks are those of `Unpad`. -/
theorem btUnpadChecksAndRemovesThePad : Obligations.BtUnpadChecksAndRemovesThePad := by
  refine ⟨decode_encode .btUnpad, fun s h => exec_btUnpad_of_lt h, fun s h => exec_btUnpad_of_len_zero h,
    fun s hlen hpos => ⟨fun hlast => exec_btUnpad_of_no_last hlen hpos hlast, fun b hlast => ?checks⟩,
    fun s d hlen hd => ⟨fun h => exec_btUnpad_of_unpad_eq_none hlen hd h, fun d' h => ?strings⟩⟩
  case checks =>
    refine ⟨fun hbad => exec_btUnpad_of_bad_last hlen hpos hlast hbad, fun h1 h8 hn => ⟨?_, fun hsome => ⟨?_, ?_⟩⟩⟩
    · rintro ⟨k, hlow, hk, hnone⟩
      exact exec_btUnpad_of_unwritten hlen hpos hlast h1 h8 hn hlow hk hnone
    · rintro ⟨k, hlow, hk, hne⟩
      exact exec_btUnpad_of_ne hlen hpos hlast h1 h8 hn hsome hlow hk hne
    · intro hall
      exact ⟨s.unpadding b.toNat, exec_btUnpad_of_eq hlen hpos hlast h1 h8 hn hall, s.len_unpadding b.toNat, rfl, rfl,
        State.frameOf_unpadding hlen hlast h1 h8 hn hall⟩
  case strings => exact ⟨_, exec_btUnpad_of_unpad_eq_some hlen hd h⟩

end Sys2Proof.Machine
end

section
/-! The commands BT.ENC and BT.DEC (42_block_transform.md R219, R220), said once for both, and the laws of the four BT
commands (R221, R230, R231). -/

namespace Sys2Proof.Machine

/-! ### The block of a load -/

/-- A load of a whole word, by its bytes (00_scope.md R13). -/
theorem Memory.load_word_iff {m : Memory} {a : Nat} {w : Word64} :
    m.load a 8 = some w ↔ ∀ k, k < 8 → m.byteAt (a + k) = some (w.extractLsb' (8 * k) 8) := by
  have hword : fromLe (toLe 8 w) = w := fromLe_toLe 8 w w.isLt
  have hbyte : ∀ k (hk : k < (toLe 8 w).length), (toLe 8 w)[k] = w.extractLsb' (8 * k) 8 := fun k hk => by
    rw [← fromLe_byte (toLe 8 w) (toLe_length 8 w).le k hk, hword]
  have hload : m.load a 8 = some w ↔ m.bytes a 8 = some (toLe 8 w) := by
    rw [load_eq_bytes, Option.map_eq_some_iff]
    constructor
    · rintro ⟨t, ht, rfl⟩
      rw [ht, toLe_fromLe 8 t (bytes_length ht) le_rfl]
    · exact fun h => ⟨_, h, hword⟩
  rw [hload, bytes_eq_some_iff]
  simp +contextual only [toLe_length, true_and, hbyte]

/-! ### The two commands -/

/-- The block function of BT.ENC in a state (R212, R214). -/
def State.forwardBlock (s : State) : Word64 → Word64 := cascadeF s.params s.subkey s.regs.btNonce

/-- The block function of BT.DEC in a state (R212, R215). -/
def State.backwardBlock (s : State) : Word64 → Word64 := cascadeB s.params s.subkey s.regs.btNonce

/-- The two commands that transform the buffer, each with its block function. -/
inductive BlockCommand : Instr → (State → Word64 → Word64) → Prop where
  | enc : BlockCommand .btEnc State.forwardBlock
  | dec : BlockCommand .btDec State.backwardBlock

namespace BlockCommand
variable {i : Instr} {f : State → Word64 → Word64} {s : State} (hi : BlockCommand i f)
include hi

theorem exec_eq (s : State) : exec i s = complete s (runTransform s (f s)) := by cases hi <;> rfl

theorem succeeds_iff {s1 : State} : Succeeds i s s1 ↔ s.len ≤ s.params.bufSize ∧ s.len % 8 = 0 ∧
    ∃ m, s.buf.mapBlocks (f s) (s.len / 8) 0 = some m ∧ s1 = s.setBuf m := by cases hi <;> rfl

theorem writesByte_eq (a : Nat) : s.writesByte i a = decide (a < s.len) := by cases hi <;> rfl

theorem writesReg_eq_false (r : RegName) : writesReg i r = false := by cases hi <;> rfl

/-- The block function sees the parameters, the subkeys and the nonce alone (R229, R231). -/
theorem congr {s' : State} (hvariant : s.variant = s'.variant) (hsk : ∀ k, s.subkey k = s'.subkey k)
    (hnonce : s.readReg .btNonce = s'.readReg .btNonce) : f s = f s' := by
  have hparams : s.params = s'.params := congrArg Variant.params hvariant
  replace hnonce : s.regs.btNonce = s'.regs.btNonce := hnonce
  cases hi with
  | enc => rw [State.forwardBlock, State.forwardBlock, hparams, funext hsk, hnonce]
  | dec => rw [State.backwardBlock, State.backwardBlock, hparams, funext hsk, hnonce]

theorem exec_of_lt (h : s.params.bufSize < s.len) : exec i s = .next (s.failedWith 0x05) := by
  rw [hi.exec_eq, runTransform, if_pos h]
  rfl

theorem exec_of_not_multiple (hlen : s.len ≤ s.params.bufSize) (hmod : s.len % 8 ≠ 0) :
    exec i s = .next (s.failedWith 0x04) := by
  rw [hi.exec_eq, runTransform, if_neg (by omega), if_pos hmod]
  rfl

theorem exec_of_unwritten (hlen : s.len ≤ s.params.bufSize) (hmod : s.len % 8 = 0) {a : Nat} (ha : a < s.len)
    (hnone : s.buf.byteAt a = none) : exec i s = .fault .unwrittenByte := by
  have hno : s.buf.hasBytes 0 s.len = false := by
    rw [← Bool.not_eq_true, Memory.hasBytes_iff]
    intro hall
    simpa [hnone] using hall a ha
  rw [hi.exec_eq, runTransform, if_neg (by omega), if_neg (by omega), if_pos hno]
  rfl

/-- The result on a buffer whose bytes below BT_LEN hold values (R216, R219, R220). -/
theorem exec_of_bytes (hlen : s.len ≤ s.params.bufSize) (hmod : s.len % 8 = 0) {d : List Byte}
    (hd : s.buf.bytes 0 s.len = some d) : ∃ m, s.buf.mapBlocks (f s) (s.len / 8) 0 = some m ∧
      m.bytes 0 s.len = some (transform (f s) d) ∧ exec i s = .next (s.setBuf m).finish := by
  have hblocks : 8 * (s.len / 8) = s.len := by omega
  have hvalues : s.buf.hasBytes 0 s.len = true := Memory.hasBytes_iff_bytes.mpr ⟨d, hd⟩
  obtain ⟨m, hm, hbytes, -⟩ :=
    Memory.mapBlocks_bytes (f s) (m := s.buf) (j := 0) (k := s.len / 8) (d := d) (by rwa [hblocks])
  refine ⟨m, hm, ?_, ?_⟩
  · rwa [transform, Memory.bytes_length hd, ← hblocks, Nat.mul_div_cancel_left _ (by omega)]
  · rw [hi.exec_eq, runTransform, if_neg (by omega), if_neg (by omega), if_neg (by simp [hvalues]), hm]
    rfl

theorem frameOf {m : Memory} (hlen : s.len ≤ s.params.bufSize) (hmod : s.len % 8 = 0)
    (hm : s.buf.mapBlocks (f s) (s.len / 8) 0 = some m) : FrameOf i s (s.setBuf m).finish := by
  refine Succeeds.frameOf_of_bytes (hi.succeeds_iff.mpr ⟨hlen, hmod, m, hm, rfl⟩) fun a ha => ?_
  have hout : s.len ≤ a := by simpa [hi.writesByte_eq] using ha
  exact Memory.mapBlocks_outside hm (by omega)

theorem transformsTheBuffer : TransformsTheBuffer i (fun s => transform (f s)) f := by
  refine ⟨fun s h => hi.exec_of_lt h, fun s hlen hmod => hi.exec_of_not_multiple hlen hmod,
    fun s hlen hmod ⟨a, ha, hnone⟩ => hi.exec_of_unwritten hlen hmod ha hnone, fun s d hlen hmod hd => ?_⟩
  obtain ⟨m, hm, hbytes, hexec⟩ := hi.exec_of_bytes hlen hmod hd
  refine ⟨_, hexec, hbytes, rfl, fun j w hj hw => ?_, rfl, hi.frameOf hlen hmod hm⟩
  exact Memory.load_word_iff.mp (Memory.mapBlocks_load hm (Nat.zero_le j) (by omega) (Memory.load_word_iff.mpr hw))

/-- Every block of a command that ends without an error has gone through the block function. -/
theorem load_of_exec {t : State} {j : Nat} {w : Word64} (hexec : exec i s = .next t) (hok : t.ctl.err = false)
    (hj : 8 * j < s.len) (hw : s.buf.load (8 * j) 8 = some w) : t.buf.load (8 * j) 8 = some (f s w) := by
  rcases exec_next hexec with ⟨s1, hsucc, rfl⟩ | ⟨e, -, rfl⟩
  · obtain ⟨-, hmod, m, hm, rfl⟩ := hi.succeeds_iff.mp hsucc
    exact Memory.mapBlocks_load hm (Nat.zero_le j) (by omega) hw
  · cases hok

end BlockCommand

/-- The subkeys by the names of their registers (R212). -/
theorem cascadeKeys_eq (s : State) : cascadeKeys s = s.subkey := by
  funext i
  fin_cases i <;> rfl

/-- Settles O33: the outcomes shared with BT.DEC, for the forward cascade. -/
theorem btEncTransformsTheBuffer : Obligations.BtEncTransformsTheBuffer := by
  refine ⟨decode_encode .btEnc, ?_⟩
  simp only [cascadeKeys_eq]
  exact BlockCommand.enc.transformsTheBuffer

/-- Settles O34: the outcomes shared with BT.ENC, for the backward cascade. -/
theorem btDecTransformsTheBuffer : Obligations.BtDecTransformsTheBuffer := by
  refine ⟨decode_encode .btDec, ?_⟩
  simp only [cascadeKeys_eq]
  exact BlockCommand.dec.transformsTheBuffer

/-! ### The laws of the commands -/

/-- Settles O35: the length is the first check of each command. -/
theorem btCommandsCheckTheLengthFirst : Obligations.BtCommandsCheckTheLengthFirst := by
  intro i s hi h
  simp only [List.mem_cons, List.not_mem_nil, or_false] at hi
  rcases hi with rfl | rfl | rfl | rfl
  · exact exec_btPad_of_le h.le
  · exact exec_btUnpad_of_lt h
  · exact BlockCommand.enc.exec_of_lt h
  · exact BlockCommand.dec.exec_of_lt h

/-- Settles O49: both blocks are the block function of the same word, and it is the same function in both commands. -/
theorem blocksAreTransformedIndependently : Obligations.BlocksAreTransformedIndependently := by
  intro i s t s' t' j j' w hi hvariant hsk hnonce _ _ hexec hexec' hok hok' hj hj' hw hw'
  obtain ⟨f, hf⟩ : ∃ f, BlockCommand i f := by
    rcases hi with rfl | rfl
    · exact ⟨_, .enc⟩
    · exact ⟨_, .dec⟩
  rw [hf.load_of_exec hexec hok hj hw, hf.load_of_exec hexec' hok' hj' hw', hf.congr hvariant hsk hnonce]
  exact ⟨rfl, rfl⟩

/-- BT.ENC and then BT.DEC, from a buffer of whole blocks, restore the buffer (R220, R230). -/
theorem exec_btEnc_btDec {s : State} {d : List Byte} (hlen : s.len ≤ s.params.bufSize) (hmod : s.len % 8 = 0)
    (hd : s.buf.bytes 0 s.len = some d) : ∃ t u, exec .btEnc s = .next t ∧ exec .btDec t = .next u ∧
      u.buf.bytes 0 u.len = some d ∧ u.len = s.len ∧ u.params = s.params ∧ u.ctl.err = s.ctl.err := by
  obtain ⟨m, -, hencrypted, henc⟩ := BlockCommand.enc.exec_of_bytes hlen hmod hd
  obtain ⟨m', -, hdecrypted, hdec⟩ :=
    BlockCommand.dec.exec_of_bytes (s := (s.setBuf m).finish) hlen hmod hencrypted
  have hinverse : transform (s.setBuf m).finish.backwardBlock (transform s.forwardBlock d) = d :=
    transformDecrypt_transformEncrypt s.params s.subkey s.regs.btNonce (by rwa [Memory.bytes_length hd])
  rw [hinverse] at hdecrypted
  exact ⟨_, _, henc, hdec, hdecrypted, rfl, rfl, rfl⟩

/-- Settles O50: on strings by the cascade's inverse law, and on the device because each command leaves in the buffer the
string that the next one reads. -/
theorem cascadeRoundTripRestoresTheBuffer : Obligations.CascadeRoundTripRestoresTheBuffer := by
  refine ⟨unpad_transformDecrypt_transformEncrypt_pad, fun s b herr hlen hb hfits => ?_⟩
  rw [← hlen] at hb hfits
  have hlt : s.len < s.params.bufSize := (pad_fits_iff ..).mp hfits
  have hpadded := State.bytes_padding hlt hb
  have hsize : s.padding.len ≤ s.params.bufSize := (State.len_padding hlt).trans_le hfits
  have hmod : s.padding.len % 8 = 0 := by rw [← Memory.bytes_length hpadded, length_pad_mod]
  obtain ⟨t2, t3, henc, hdec, hrestored, hlen3, hparams3, herr3⟩ := exec_btEnc_btDec hsize hmod hpadded
  have hsize3 : t3.len ≤ t3.params.bufSize := by rw [hlen3, hparams3]; exact hsize
  obtain ⟨hunpad, hdata⟩ := exec_btUnpad_of_unpad_eq_some hsize3 hrestored (unpad_pad b)
  have hlen4 := (Memory.bytes_length hdata).symm
  rw [hlen4] at hdata
  exact ⟨s.padding, t2, t3, _, exec_btPad_of_lt hlt, henc, hdec, hunpad, herr3.trans herr, hlen4, hdata⟩

end Sys2Proof.Machine
end

section
/-! The control commands NOP, KEY.WIPE and BUF.WIPE (43_control.md): the state each completes in, and its frame. -/

namespace Sys2Proof.Machine

/-! ### NOP -/

/-- Once a command's word is accepted, the engine's step is the command (60_exceptions.md R271, R272). -/
theorem engineStep_latch_encode (s : State) (i : Instr) :
    engineStep (s.setCtl (s.ctl.latch (encode i))) = exec i (s.setCtl (s.ctl.latch (encode i))) := by
  have hpending : decode (s.setCtl (s.ctl.latch (encode i))).ctl.pending = .ok i := decode_encode i
  exact engineStep_command rfl hpending

theorem exec_nop (s : State) : exec .nop s = .next s.finish := rfl

theorem State.frameOf_nop (s : State) : FrameOf .nop s s.finish := Succeeds.frameOf_of_bytes rfl fun _ _ => rfl

/-- Settles O24: NOP is its completion alone, so that ERR and ERRCODE stay as acceptance left them. -/
theorem nopOnlyCompletes : Obligations.NopOnlyCompletes := by
  refine ⟨decode_encode .nop, fun s => ⟨s.finish, exec_nop s, rfl, s.frameOf_nop⟩, fun s hidle => ?acknowledges⟩
  have haccept : hostWrite s 0x20 8 (encode .nop) = .next (s.setCtl (s.ctl.latch (encode .nop))) := by
    rw [hostWrite_cmd, s.ctl.writeCmd_idle _ hidle]
  exact ⟨_, _, haccept, (engineStep_latch_encode s .nop).trans (exec_nop _), rfl, rfl⟩

/-! ### KEY.WIPE -/

/-- The state KEY.WIPE completes in (R251). -/
def State.keyWiping (s : State) : State :=
  (s.setRegs { s.regs with
    bcKey := 0, bcNonce := 0, btNonce := 0, btSk0 := 0, btSk1 := 0, btSk2 := 0, btSk3 := 0 }).finish

theorem exec_keyWipe (s : State) : exec .keyWipe s = .next s.keyWiping := rfl

theorem State.frameOf_keyWiping (s : State) : FrameOf .keyWipe s s.keyWiping :=
  Succeeds.frameOf_of_bytes rfl fun _ _ => rfl

theorem State.readReg_keyWiping (s : State) {r : RegName}
    (hr : r ∈ [RegName.bcKey, .bcNonce, .btNonce, .btSk0, .btSk1, .btSk2, .btSk3]) : s.keyWiping.readReg r = 0 := by
  simp only [List.mem_cons, List.not_mem_nil, or_false] at hr
  rcases hr with rfl | rfl | rfl | rfl | rfl | rfl | rfl <;> rfl

/-- Settles O36: the state KEY.WIPE completes in, its flags and its frame. -/
theorem keyWipeZeroesTheKeys : Obligations.KeyWipeZeroesTheKeys :=
  ⟨decode_encode .keyWipe, fun s =>
    ⟨s.keyWiping, exec_keyWipe s, fun _ hr => s.readReg_keyWiping hr, rfl, s.frameOf_keyWiping⟩⟩

/-! ### BUF.WIPE -/

/-- What BUF.WIPE leaves before its completion (R252). -/
def State.bufWiped (s : State) : State :=
  (s.setBuf (Memory.zeros 0 s.params.bufSize)).setRegs { s.regs with btLen := 0, bcData := 0 }

theorem succeeds_bufWipe (s : State) : Succeeds .bufWipe s s.bufWiped := rfl

theorem exec_bufWipe (s : State) : exec .bufWipe s = .next s.bufWiped.finish := rfl

theorem State.readReg_bufWiped_finish (s : State) {r : RegName} (hstatus : r ≠ .status) (hlen : r ≠ .btLen)
    (hdata : r ≠ .bcData) : s.bufWiped.finish.readReg r = s.readReg r := by
  have hwrites : writesReg .bufWipe r = false := by simp [writesReg, hlen, hdata]
  calc s.bufWiped.finish.readReg r = s.bufWiped.readReg r := State.readReg_congr rfl rfl rfl hstatus
    _ = s.readReg r := (succeeds_bufWipe s).readReg_eq hstatus hwrites

/-- The wiped buffer holds 0 inside its bounds and nothing outside them, whatever it held. -/
theorem State.byteAt_bufWiped (s : State) (a : Nat) :
    s.bufWiped.buf.byteAt a = if a < s.params.bufSize then some 0 else none := by
  change (Memory.zeros 0 s.params.bufSize).byteAt a = _
  simp [Memory.byteAt_zeros]

theorem Memory.load_one {m : Memory} {a : Nat} {b : Byte} (h : m.byteAt a = some b) :
    m.load a 1 = some (b.setWidth 64) := by
  simp [load, h]

/-- A host read of one byte of the buffer while idle is the byte (20_memory.md R84). -/
theorem hostRead_byte_of_idle {s : State} {a : Nat} {b : Byte} (hbusy : s.ctl.busy = false) (ha : a < s.params.bufSize)
    (h : s.buf.byteAt a = some b) : hostRead s (0x10000 + a) 1 = .next (s, b.setWidth 64) :=
  (hostRead_buf (.inl rfl) (Nat.mod_one a) ha).trans (State.hostReadBuf_of_idle hbusy (Memory.load_one h))

/-- Settles O37: the bytes of the wiped buffer, its idle reads, and the registers outside the write set. -/
theorem bufWipeZeroesTheBuffer : Obligations.BufWipeZeroesTheBuffer := by
  refine ⟨decode_encode .bufWipe, fun s => ⟨s.bufWiped.finish, exec_bufWipe s, fun a ha => ?inside, rfl, rfl, rfl,
    fun _ hstatus hlen hdata => s.readReg_bufWiped_finish hstatus hlen hdata, fun a ha _ => ?outside⟩⟩
  case inside =>
    have hbyte : s.bufWiped.finish.buf.byteAt a = some 0 := (s.byteAt_bufWiped a).trans (if_pos ha)
    exact ⟨hbyte, hostRead_byte_of_idle (s := s.bufWiped.finish) rfl ha hbyte⟩
  case outside => exact (s.byteAt_bufWiped a).trans (if_neg (Nat.not_lt.mpr ha))

end Sys2Proof.Machine
end

section
/-! How a command begins and ends (60_exceptions.md R262, R271, R272, R286): the acceptance of a CMD write, and the
engine's turn as a completion, a recorded error or the fault of an unwritten byte. -/

namespace Sys2Proof.Machine

/-! ### Acceptance -/

/-- A word accepted by an idle core (60_exceptions.md R271). -/
theorem hostWrite_cmd_of_idle {s : State} (v : Word64) (hidle : s.ctl.busy = false) :
    hostWrite s 0x20 8 v = .next (s.setCtl (s.ctl.latch v)) := by
  rw [hostWrite_cmd, s.ctl.writeCmd_idle v hidle]

/-- A word dropped by a busy core (60_exceptions.md R271). -/
theorem hostWrite_cmd_of_busy {s : State} (v : Word64) (hbusy : s.ctl.busy = true) :
    hostWrite s 0x20 8 v = .next (s.setCtl { s.ctl with ovr := true }) := by
  rw [hostWrite_cmd, s.ctl.writeCmd_busy v hbusy]

/-- Acceptance lowers the interrupt line, whatever IE is (60_exceptions.md R276). -/
@[simp] theorem Control.irq_latch (c : Control) (v : Word64) : (c.latch v).irq = false := Bool.and_false _

/-- Settles O15: the two cases of R271. -/
theorem cmdWriteAcceptsOrOverruns : Obligations.CmdWriteAcceptsOrOverruns := fun s v =>
  ⟨fun hidle => ⟨_, hostWrite_cmd_of_idle v hidle, s.ctl.irq_latch v, rfl⟩, hostWrite_cmd_of_busy v⟩

/-! ### The engine's turn -/

/-- The engine's turn is its step, with that turn taken off the schedule (assumption log 3). -/
theorem step_of_engine {s : State} (hmover : s.nextMover = .engine) : step s = engineStep s.popMover := by
  rw [step, hmover, moverStep]

/-- Settles O5, through the engine's step in the state with its turn taken. -/
theorem stepRunsThePendingCommand : Obligations.StepRunsThePendingCommand := by
  intro s i hbusy hmover hdecode
  calc step s = engineStep s.popMover := step_of_engine hmover
    _ = exec i s.popMover := engineStep_command hbusy hdecode

/-! ### A placed command -/

@[simp] theorem tableWord_toNat (v : Word64) : tableWord 64 v.toNat = v := by
  rw [tableWord, Nat.mod_eq_of_lt v.isLt, BitVec.ofNat_toNat, BitVec.setWidth_eq]

theorem decodeTableWord_encode (i : Instr) : decodeTableWord 64 (encode i).toNat = some i := by
  rw [decodeTableWord, tableWord_toNat, decode_encode]

/-- Settles O6: the placed word is the command's own, so that the engine's next step is the command. -/
theorem placedCommandRunsNext : Obligations.PlacedCommandRunsNext := by
  refine fun s i => ⟨decodeTableWord_encode i, ?_⟩
  rw [step_withFetchWord, tableWord_toNat, engineStep_latch_encode]
  rfl

/-! ### Every command completes or meets an unwritten byte -/

/-- A completion stops only at an unwritten byte, the one fault there is (60_exceptions.md R286). -/
theorem complete_next_or_fault (s : State) (r : Executed) :
    (∃ t, complete s r = .next t) ∨ complete s r = .fault .unwrittenByte := by
  cases r with
  | ok s1 => exact .inl ⟨_, complete_ok s s1⟩
  | error e => exact .inl ⟨_, complete_error s e⟩
  | stuck f => exact .inr (complete_stuck s f)

/-- BT.UNPAD stops only where the last byte or a byte of the pad holds no value (42_block_transform.md R218). -/
theorem exec_btUnpad_next_or_fault (s : State) :
    (∃ t, exec .btUnpad s = .next t) ∨ exec .btUnpad s = .fault .unwrittenByte := by
  by_cases hlarge : s.params.bufSize < s.len
  · exact .inl ⟨_, exec_btUnpad_of_lt hlarge⟩
  by_cases hzero : s.len = 0
  · exact .inl ⟨_, exec_btUnpad_of_len_zero hzero⟩
  have hlen : s.len ≤ s.params.bufSize := Nat.not_lt.mp hlarge
  have hpos : 0 < s.len := Nat.pos_of_ne_zero hzero
  cases hlast : s.buf.byteAt (s.len - 1) with
  | none => exact .inr (exec_btUnpad_of_no_last hlen hpos hlast)
  | some b =>
    rw [exec_btUnpad_of_last hlen hpos hlast]
    split_ifs
    · exact .inl ⟨_, rfl⟩
    · exact .inr rfl
    · exact .inl ⟨_, rfl⟩
    · exact .inl ⟨_, rfl⟩

theorem BlockCommand.exec_next_or_fault {i : Instr} {f : State → Word64 → Word64} (hi : BlockCommand i f) (s : State) :
    (∃ t, exec i s = .next t) ∨ exec i s = .fault .unwrittenByte := by
  rw [hi.exec_eq]
  exact complete_next_or_fault s _

/-- The outcomes of a command: a next state, or for the three that read the buffer an unwritten byte
(60_exceptions.md R286; 42_block_transform.md R217 to R220). -/
theorem exec_next_or_fault (i : Instr) (s : State) :
    (∃ t, exec i s = .next t) ∨ (exec i s = .fault .unwrittenByte ∧ (i = .btUnpad ∨ i = .btEnc ∨ i = .btDec)) := by
  cases i with
  | nop => exact .inl ⟨_, exec_nop s⟩
  | prngSeed => exact .inl ⟨_, exec_prngSeed s⟩
  | prngNext =>
    cases hseeded : s.ctl.seeded with
    | false => exact .inl ⟨_, exec_prngNext_unseeded hseeded⟩
    | true => exact .inl ⟨_, exec_prngNext_seeded hseeded⟩
  | bcEnc => exact .inl ⟨_, exec_bcEnc s⟩
  | bcDec => exact .inl ⟨_, exec_bcDec s⟩
  | btPad =>
    rcases Nat.lt_or_ge s.len s.params.bufSize with hfits | hfull
    · exact .inl ⟨_, exec_btPad_of_lt hfits⟩
    · exact .inl ⟨_, exec_btPad_of_le hfull⟩
  | btUnpad => exact (exec_btUnpad_next_or_fault s).imp_right fun hf => ⟨hf, .inl rfl⟩
  | btEnc => exact (BlockCommand.enc.exec_next_or_fault s).imp_right fun hf => ⟨hf, .inr (.inl rfl)⟩
  | btDec => exact (BlockCommand.dec.exec_next_or_fault s).imp_right fun hf => ⟨hf, .inr (.inr rfl)⟩
  | keyWipe => exact .inl ⟨_, exec_keyWipe s⟩
  | bufWipe => exact .inl ⟨_, exec_bufWipe s⟩

/-- Settles O40, from the outcomes of a command. -/
theorem onlyBufferReadersCanFault : Obligations.OnlyBufferReadersCanFault := by
  intro i s
  rcases exec_next_or_fault i s with ⟨t, ht⟩ | ⟨hfault, hreader⟩
  · rw [ht]
    exact ⟨fun _ => nofun, fun _ => nofun⟩
  · rw [hfault]
    exact ⟨fun _ => nofun, fun _ _ => hreader⟩

/-- The engine's step ends the pending command, legal or not, unless it meets an unwritten byte (60_exceptions.md R272). -/
theorem engineStep_completes_or_fault {s : State} (hbusy : s.ctl.busy = true) :
    (∃ t, engineStep s = .next t ∧ t.ctl.busy = false ∧ t.ctl.done = true) ∨ engineStep s = .fault .unwrittenByte := by
  cases hdecode : decode s.ctl.pending with
  | ok i =>
    rw [engineStep_command hbusy hdecode]
    rcases exec_next_or_fault i s with ⟨t, ht⟩ | ⟨hfault, -⟩
    · exact .inl ⟨t, ht, exec_completes ht⟩
    · exact .inr hfault
  | error r => exact .inl ⟨_, engineStep_illegal hbusy hdecode, rfl, rfl⟩

/-- Settles O8: the step is the engine's, and taking its turn leaves BUSY as it was. -/
theorem pendingCommandCompletesOrFaults : Obligations.PendingCommandCompletesOrFaults := by
  intro s hbusy hmover
  rw [step_of_engine hmover]
  exact engineStep_completes_or_fault (s := s.popMover) hbusy

/-! ### Failed commands -/

/-- The codes that are ever raised (60_exceptions.md R260, R268). -/
theorem ErrorCode.code_mem_of_ne_invariant {e : ErrorCode} (he : e ≠ .invariant) :
    e.code ∈ [(0x01 : Byte), 0x02, 0x03, 0x04, 0x05] := by
  cases e with
  | invariant => exact absurd rfl he
  | illegalCommand | notSeeded | invalidPadding | lengthNotMultiple | bufferOverflow => decide

theorem State.raiseError_finish_eq_failedWith (s : State) (e : ErrorCode) :
    (s.raiseError e).finish = s.failedWith e.code := rfl

/-- A success leaves ERR as acceptance left it (assumption log 21). -/
theorem Succeeds.err_finish {i : Instr} {s s1 : State} (h : Succeeds i s s1) : s1.finish.ctl.err = s.ctl.err := by
  rw [State.finish_ctl, Control.finish_err, h.ctl]
  split <;> rfl

/-- A command that sets ERR has failed with one of its errors (60_exceptions.md R261, R262). -/
theorem exec_failed {i : Instr} {s t : State} (hclear : s.ctl.err = false) (h : exec i s = .next t)
    (hset : t.ctl.err = true) : ∃ e : ErrorCode, e ≠ .invariant ∧ t = s.failedWith e.code := by
  rcases exec_next h with ⟨s1, hsucc, rfl⟩ | ⟨e, hmem, rfl⟩
  · exact absurd (hset.symm.trans (hsucc.err_finish.trans hclear)) (by decide)
  · exact ⟨e, ne_invariant_of_mem_commandErrors hmem, s.raiseError_finish_eq_failedWith e⟩

/-- The engine's step sets ERR only by a failure, that of an illegal word among them (60_exceptions.md R261 to R263). -/
theorem engineStep_failed {s t : State} (hclear : s.ctl.err = false) (h : engineStep s = .next t)
    (hset : t.ctl.err = true) : ∃ e : ErrorCode, e ≠ .invariant ∧ t = s.failedWith e.code := by
  rcases engineStep_next h with ⟨-, rfl⟩ | ⟨-, i, -, hexec⟩ | ⟨-, -, rfl⟩
  · exact absurd (hset.symm.trans hclear) (by decide)
  · exact exec_failed hclear hexec hset
  · exact ⟨.illegalCommand, by decide, s.raiseError_finish_eq_failedWith _⟩

/-- Settles O39: a failure records a raised code and ends the command, and changes nothing else. -/
theorem failedCommandsChangeOnlyStatus : Obligations.FailedCommandsChangeOnlyStatus := by
  intro s t _ hclear h hset
  obtain ⟨e, he, rfl⟩ := engineStep_failed hclear h hset
  exact ⟨e.code, ErrorCode.code_mem_of_ne_invariant he, rfl⟩

end Sys2Proof.Machine
end

section
/-! What a reset leaves (70_reset_and_hazards.md R300, R301, R304), and the hazards of the BUSY period: which host writes
are refused and which host reads are draws (R310, R311). -/

namespace Sys2Proof.Machine

/-! ### Reset -/

theorem State.readReg_reset {r : RegName} (hid : r ≠ .id) (hcfg : r ≠ .cfg) : State.reset.readReg r = 0 := by
  cases r
  case id => exact absurd rfl hid
  case cfg => exact absurd rfl hcfg
  all_goals rfl

/-- No buffer byte holds a value after reset, so every admitted read of the buffer faults (10_state.md R60). -/
theorem hostRead_buf_reset {a n : Nat} (hn : n = 1 ∨ n = 2 ∨ n = 4 ∨ n = 8) (ha : a % n = 0)
    (hb : a + n ≤ State.reset.params.bufSize) : hostRead State.reset (0x10000 + a) n = .fault .unwrittenByte := by
  have hload : State.reset.buf.load a n = none := Memory.load_eq_none (k := 0) (by omega) rfl
  exact (hostRead_buf hn ha hb).trans (State.hostReadBuf_of_load_eq_none hload)

/-- An aligned offset of the register window that names no register is one of R55. -/
theorem RegName.reserved_of_ofOffset_eq_none {o : Nat} (ho : o % 8 = 0) (hnone : RegName.ofOffset o = none) :
    0xA8 ≤ o := by
  by_contra hlow
  obtain ⟨r, rfl⟩ := RegName.exists_offset_eq (Nat.lt_of_not_le hlow) ho
  rw [RegName.ofOffset_offset] at hnone
  cases hnone

/-- Settles O10: the values of the reset state, with the window rules for the buffer and the reserved offsets. -/
theorem resetLeavesTheSpecValues : Obligations.ResetLeavesTheSpecValues := by
  refine ⟨rfl, rfl, fun r hid hcfg => State.readReg_reset hid hcfg, rfl, rfl, rfl, rfl, rfl, rfl, rfl, fun _ => rfl,
    fun a ha => hostRead_buf_reset (.inl rfl) (Nat.mod_one a) ha, fun o hlt ho hnone => ?_⟩
  have hlow : 0xA8 ≤ o := RegName.reserved_of_ofOffset_eq_none ho hnone
  exact (reservedOffsetsReadZeroAndIgnoreWrites.2 State.reset o 0 hlow (by omega) ho).1

/-- The reset event is taken in every state, a command pending or not (70_reset_and_hazards.md R304). -/
theorem step_of_reset {s : State} (hmover : s.nextMover = .reset) : step s = .next s.popMover.coreReset := by
  rw [step, hmover, moverStep]

/-- Settles O11: the reset event answers the core's reset, whose parts are known. -/
theorem resetEventGivesTheResetState : Obligations.ResetEventGivesTheResetState := fun _ hmover =>
  ⟨_, step_of_reset hmover, rfl, rfl, rfl, rfl, rfl, rfl, rfl⟩

/-! ### Host writes while BUSY = 1 -/

section BusyWrites
variable {s : State} (hbusy : s.ctl.busy = true) (v : Word64)
include hbusy

theorem hostWrite_operand_of_busy {r : RegName} (hr : r.isOperand = true) :
    hostWrite s r.offset 8 v = .refused .writeWhileBusy := by
  rw [hostWrite_offset, State.hostWriteReg, hbusy, hr]
  rfl

theorem hostWrite_buf_of_busy {a n : Nat} (hn : n = 1 ∨ n = 2 ∨ n = 4 ∨ n = 8) (ha : a % n = 0)
    (hb : a + n ≤ s.params.bufSize) : hostWrite s (0x10000 + a) n v = .refused .writeWhileBusy := by
  simp only [hostWrite, target_buf hn ha hb, State.hostWriteBuf, hbusy, if_true]

end BusyWrites

/-- The RW operand registers of R310, by name. -/
theorem RegName.isOperand_of_mem : ∀ r ∈ [RegName.prngSeed, .prngTweak, .bcKey, .bcNonce, .bcData, .btNonce, .btSk0,
    .btSk1, .btSk2, .btSk3, .btLen], r.isOperand = true := by decide

/-- Settles O21, one clause per row of R310. -/
theorem busyWritesOfOperandsAreRefused : Obligations.BusyWritesOfOperandsAreRefused := fun s v hbusy =>
  ⟨fun r hr => hostWrite_operand_of_busy hbusy v (RegName.isOperand_of_mem r hr),
    fun _ _ hn ha hb => hostWrite_buf_of_busy hbusy v hn ha hb, hostWrite_ctrl s v, hostWrite_status s v,
    fun _ hr => hostWrite_of_readOnly s v hr,
    fun o hlow hhigh ho => (reservedOffsetsReadZeroAndIgnoreWrites.2 s o v hlow hhigh ho).2⟩

/-! ### Host reads while BUSY = 1 -/

section PendingWriteSet
variable {s : State}

theorem State.pendingWritesReg_of_command {i : Instr} (h : decode s.ctl.pending = .ok i) :
    s.pendingWritesReg = writesReg i := by
  funext r
  simp only [State.pendingWritesReg, h]

theorem State.pendingWritesByte_of_command {i : Instr} (h : decode s.ctl.pending = .ok i) :
    s.pendingWritesByte = s.writesByte i := by
  funext a
  simp only [State.pendingWritesByte, h]

/-- An illegal word has an empty write set (assumption log 8). -/
theorem State.pendingWritesReg_of_illegal {e : IllegalWord} (h : decode s.ctl.pending = .error e) :
    s.pendingWritesReg = fun _ => false := by
  funext r
  simp only [State.pendingWritesReg, h]

theorem State.pendingWritesByte_of_illegal {e : IllegalWord} (h : decode s.ctl.pending = .error e) :
    s.pendingWritesByte = fun _ => false := by
  funext a
  simp only [State.pendingWritesByte, h]

end PendingWriteSet

section BusyReads
variable {s : State} {a n : Nat} {v : Word64}

/-- A read of a register in the pending command's write set is a draw (20_memory.md R96). -/
theorem hostRead_of_drawn {r : RegName} (hbusy : s.ctl.busy = true) (hr : s.pendingWritesReg r = true) :
    hostRead s r.offset 8 = .next (s.nextDraw, Config.draw s.draws) := by
  rw [hostRead_offset, State.hostReadReg, hbusy, hr]
  rfl

/-- A read with a byte in the pending command's write set mixes the draw into the value (assumption log 7). -/
theorem State.hostReadBuf_of_drawn (hbusy : s.ctl.busy = true) (hload : s.buf.load a n = some v)
    (hany : ∃ k, k < n ∧ s.pendingWritesByte (a + k) = true) :
    s.hostReadBuf a n = .next (s.nextDraw, (v &&& ~~~byteMask s.pendingWritesByte a n) |||
      (Config.draw s.draws &&& byteMask s.pendingWritesByte a n)) := by
  have hsel : anyByte s.pendingWritesByte a n = true := (anyByte_iff _ n a).mpr hany
  simp only [State.hostReadBuf, hload, hbusy, hsel, Bool.and_self, if_true]

theorem State.hostReadBuf_of_undrawn (hload : s.buf.load a n = some v)
    (hnone : ∀ k, k < n → s.pendingWritesByte (a + k) = false) : s.hostReadBuf a n = .next (s, v) := by
  have hsel : anyByte s.pendingWritesByte a n = false := (anyByte_eq_false_iff _ n a).mpr hnone
  simp only [State.hostReadBuf, hload, hsel, Bool.and_false, Bool.false_eq_true, if_false]

/-- A read of written bytes while BUSY = 1: one draw is taken exactly if a byte is in the write set, and each byte is
the draw's in the set and its value outside it (R311; assumption log 7). -/
theorem State.hostReadBuf_of_busy (hbusy : s.ctl.busy = true) (hn : n ≤ 8)
    (hvalues : ∀ k, k < n → (s.buf.byteAt (a + k)).isSome = true) :
    ∃ t w, s.hostReadBuf a n = .next (t, w) ∧ w.toNat < 2 ^ (8 * n) ∧
      ((∃ k, k < n ∧ s.pendingWritesByte (a + k) = true) → t = s.nextDraw) ∧
      ((∀ k, k < n → s.pendingWritesByte (a + k) = false) → t = s) ∧
      ∀ k, k < n →
        (s.pendingWritesByte (a + k) = true → w.extractLsb' (8 * k) 8 = (Config.draw s.draws).extractLsb' (8 * k) 8) ∧
        (s.pendingWritesByte (a + k) = false → s.buf.byteAt (a + k) = some (w.extractLsb' (8 * k) 8)) := by
  obtain ⟨v, hload, hlt, hbytes⟩ := Memory.load_eq_some hn hvalues
  by_cases hany : ∃ k, k < n ∧ s.pendingWritesByte (a + k) = true
  · refine ⟨_, _, State.hostReadBuf_of_drawn hbusy hload hany, mixed_lt _ _ _ _ _ hlt, fun _ => rfl,
      fun hnone => ?_, fun k hk => ?_⟩
    · obtain ⟨k, hk, hdrawn⟩ := hany
      exact absurd ((hnone k hk).symm.trans hdrawn) Bool.false_ne_true
    · rw [mixed_byte v _ _ n a k hk hn]
      exact ⟨fun hdrawn => by rw [if_pos hdrawn], fun hvalue => by simp [hvalue, hbytes k hk]⟩
  · have hnone : ∀ k, k < n → s.pendingWritesByte (a + k) = false := fun k hk =>
      Bool.eq_false_iff.mpr fun hdrawn => hany ⟨k, hk, hdrawn⟩
    exact ⟨s, v, State.hostReadBuf_of_undrawn hload hnone, hlt, fun h => absurd h hany, fun _ => rfl, fun k hk =>
      ⟨fun hdrawn => absurd ⟨k, hk, hdrawn⟩ hany, fun _ => hbytes k hk⟩⟩

end BusyReads

/-- Settles O22: the draws are those of the pending command's write set, which is empty for an illegal word. -/
theorem busyReadsOfTheWriteSetAreDraws : Obligations.BusyReadsOfTheWriteSetAreDraws := by
  refine fun s hbusy => ⟨fun i hi => ⟨fun r hr => ?drawn, fun r hr => ?value⟩, fun e he r => ?illegal,
    fun r hr => ?control, fun drawn hdrawn a n hn ha hb => ?buffer⟩
  case drawn => exact hostRead_of_drawn hbusy (by rw [State.pendingWritesReg_of_command hi, hr])
  case value => exact hostRead_of_undrawn (by rw [State.pendingWritesReg_of_command hi, hr, Bool.and_false])
  case illegal => exact hostRead_of_undrawn (by rw [State.pendingWritesReg_of_illegal he, Bool.and_false])
  case control =>
    have hcontrol : r ∈ [RegName.id, .cfg, .ctrl, .status, .cmd] := List.mem_append_left [RegName.cmd] hr
    exact hostRead_of_never_written (writesReg_eq_false_of_control hcontrol)
  case buffer =>
    have hset : drawn = s.pendingWritesByte := by
      rcases hdrawn with ⟨i, hi, rfl⟩ | ⟨e, he, rfl⟩
      · exact (State.pendingWritesByte_of_command hi).symm
      · exact (State.pendingWritesByte_of_illegal he).symm
    subst hset
    rw [hostRead_buf hn ha hb]
    exact ⟨fun ⟨k, hk, hnone⟩ => State.hostReadBuf_of_load_eq_none (Memory.load_eq_none hk hnone),
      State.hostReadBuf_of_busy hbusy (by omega)⟩

end Sys2Proof.Machine
end
